-- ==== Sys2Proof/Word.lean ====
section
/-! DEFINITION. The bit vectors of the V2DMX core, by the widths the spec gives: bytes and 32-bit words (R13), the 12-bit operand fields (R10 rows IDX_WIDTH and LEN_WIDTH) and the 32-bit time value (R10 row TIME_WIDTH). -/

namespace Sys2Proof

/-- A byte: 8 bits, unsigned (R13). -/
abbrev Byte := BitVec 8

/-- A command word (R59). -/
abbrev Word := BitVec 32

/-- An index, start or length field of a command word: 12 bits, unsigned (R64). -/
abbrev Field := BitVec 12

/-- A value of the time input: a 32-bit count of milliseconds (R95). -/
abbrev Time := BitVec 32

end Sys2Proof
end

