-- ==== Sys2Proof/Syntax.lean ====
section
/-! DEFINITION. The six operations of the exposed surface (R66), one constructor per row of spec/opcode_table.json, and the command that carries one (R59, R65). -/

namespace Sys2Proof

/-- The operations of the opcode map (R66). -/
inductive Instr where
  /-- `initialize()` (R107). The constructor's name has a suffix because the bare word is a command of Lean. -/
  | initializeCore
  /-- `reset()` (R104). -/
  | reset
  /-- `serviceTick()` (R97); the time value is an input port, not a field (R60). -/
  | serviceTick
  /-- `setChannel(index, value)` (R82). -/
  | setChannel (index : Field) (value : Byte)
  /-- `setChannels(start, data, length)` (R81), with `length` the field `LEN` of the word and `data` the bytes after it. -/
  | setChannels (start length : Field) (data : List Byte)
  /-- `getChannel(index)` (R83). -/
  | getChannel (index : Field)
  deriving DecidableEq, Repr

/-- What the host issues as one operation: a 32-bit word and the data bytes that follow it (R59, R65). -/
structure Command where
  word : Word
  data : List Byte
  deriving DecidableEq, Repr

end Sys2Proof
end

