-- ==== Sys2Proof/WellFormed.lean ====
section
/-! DEFINITION. Which terms of Instr are well-formed: the one check the field widths leave is that the byte list of `setChannels` has `LEN` bytes (R65, D21). -/

namespace Sys2Proof

/-- R65: a `setChannels` term whose byte list has another length than `LEN` is ill-formed. -/
def Instr.dataFits (length : Field) (data : List Byte) : Bool :=
  data.length == length.toNat

/-- The well-formed terms (R65). -/
def Instr.wellFormed : Instr → Bool
  | .initializeCore => true
  | .reset => true
  | .serviceTick => true
  | .setChannel _ _ => true
  | .setChannels _ length data => Instr.dataFits length data
  | .getChannel _ => true

end Sys2Proof
end

