-- ==== Sys2Proof/Decode.lean ====
section
/-! DEFINITION. The decoder of R68 over a word and its data bytes, total on every command, and the encoder written from the formats N, W, S and R (R60 to R63). -/

namespace Sys2Proof

/-- What the decoder says of a command: an operation, one of the two verdicts of R68 that execution raises as a fault,
or the refusal of R65. -/
inductive Verdict where
  | op (i : Instr)
  | illegalCommand
  | reservedBits
  /-- The byte list has another length than the word calls for: refused at the decoder, never executed (R65, D21). -/
  | dataLength
  deriving DecidableEq, Repr

/-- `OP` = `word[31:28]` (R59). -/
def opField (w : Word) : BitVec 4 := w.extractLsb' 28 4

/-- `word[27:16]`: `IDX` or `START` (R61 to R63). -/
def idxField (w : Word) : Field := w.extractLsb' 16 12

/-- `word[11:0]`: `LEN` (R62). -/
def lenField (w : Word) : Field := w.extractLsb' 0 12

/-- `word[7:0]`: `VAL` (R61). -/
def valField (w : Word) : Byte := w.extractLsb' 0 8

/-- The verdict on a word of a defined `OP`, given whether its must-be-0 bits are 0 and whether the bytes after it are
as many as the word calls for. -/
def verdictOf (reservedClear dataOk : Bool) (i : Instr) : Verdict :=
  if reservedClear then (if dataOk then .op i else .dataLength) else .reservedBits

/-- `Decode` (R68), with the byte list of R65 beside the word. -/
def decode (c : Command) : Verdict :=
  if opField c.word = 0x1#4 then
    verdictOf (c.word.extractLsb' 0 28 == 0#28) c.data.isEmpty .initializeCore
  else if opField c.word = 0x2#4 then
    verdictOf (c.word.extractLsb' 0 28 == 0#28) c.data.isEmpty .reset
  else if opField c.word = 0x3#4 then
    verdictOf (c.word.extractLsb' 0 28 == 0#28) c.data.isEmpty .serviceTick
  else if opField c.word = 0x4#4 then
    verdictOf (c.word.extractLsb' 8 8 == 0#8) c.data.isEmpty
      (.setChannel (idxField c.word) (valField c.word))
  else if opField c.word = 0x5#4 then
    verdictOf (c.word.extractLsb' 12 4 == 0#4) (Instr.dataFits (lenField c.word) c.data)
      (.setChannels (idxField c.word) (lenField c.word) c.data)
  else if opField c.word = 0x6#4 then
    verdictOf (c.word.extractLsb' 0 16 == 0#16) c.data.isEmpty (.getChannel (idxField c.word))
  else .illegalCommand

/-- A field placed in a word with its bit 0 at bit `lo`. -/
def place (lo : Nat) {n : Nat} (f : BitVec n) : Word := f.setWidth 32 <<< lo

/-- Format N (R60): `OP` in 31:28, the other bits 0. -/
def formatN (op : BitVec 4) : Word := place 28 op

/-- Format W (R61): `OP` in 31:28, `IDX` in 27:16, 0 in 15:8, `VAL` in 7:0. -/
def formatW (op : BitVec 4) (index : Field) (value : Byte) : Word :=
  place 28 op ||| place 16 index ||| place 0 value

/-- Format S (R62): `OP` in 31:28, `START` in 27:16, 0 in 15:12, `LEN` in 11:0. -/
def formatS (op : BitVec 4) (start length : Field) : Word :=
  place 28 op ||| place 16 start ||| place 0 length

/-- Format R (R63): `OP` in 31:28, `IDX` in 27:16, 0 in 15:0. -/
def formatR (op : BitVec 4) (index : Field) : Word := place 28 op ||| place 16 index

/-- The command that spells an operation (R60 to R66). -/
def encode : Instr → Command
  | .initializeCore => ⟨formatN 0x1#4, []⟩
  | .reset => ⟨formatN 0x2#4, []⟩
  | .serviceTick => ⟨formatN 0x3#4, []⟩
  | .setChannel index value => ⟨formatW 0x4#4 index value, []⟩
  | .setChannels start length data => ⟨formatS 0x5#4 start length, data⟩
  | .getChannel index => ⟨formatR 0x6#4 index, []⟩

/-- The command word of an operation, which a lifecycle fault records (R109). -/
def Instr.word (i : Instr) : Word := (encode i).word

/-- The command whose bits are `w`, numbered as the opcode table numbers them: bits 31..0 are the word and each later
byte of data takes the next eight bits, the bits from `nbits` on being 0. A word with `OP` = 0x5 brings `LEN` data bytes
and every other word none (R65). -/
def Command.ofBits (nbits w : Nat) : Command :=
  let bits := w % 2 ^ nbits
  let word : Word := BitVec.ofNat 32 bits
  let count := if opField word = 0x5#4 then (lenField word).toNat else 0
  ⟨word, (List.range count).map fun k => BitVec.ofNat 8 (bits >>> (32 + 8 * k))⟩

/-- The instruction the decoder reads from the bits `w` (see `Command.ofBits`), or none where it rejects them. -/
def decodeTableWord (nbits w : Nat) : Option Instr :=
  match decode (Command.ofBits nbits w) with
  | .op i => some i
  | .illegalCommand => none
  | .reservedBits => none
  | .dataLength => none

end Sys2Proof
end

