-- ==== Sys2Proof/Config.lean ====
section
/-! DEFINITION. The parameters of R10: the fixed counts as constants, the parameters with a default or marked OPEN as the fields of Config, and the free values that stand for the OPEN ones and for the levels of the line the spec does not state. -/

namespace Sys2Proof

/-- `NCH`: channels, indices 0..511 (R10, R11). -/
abbrev nch : Nat := 512
/-- `CH_PER_BLOCK`: channels of one Slot Block (R10). -/
abbrev chPerBlock : Nat := 8
/-- `NBLK`: Slot Blocks (R10). -/
abbrev nblk : Nat := 64
/-- `BLOCK_BYTES`: bytes of one Slot Block (R10). -/
abbrev blockBytes : Nat := 11
/-- `HDR_BYTES`: bytes of the Header Region (R10). -/
abbrev hdrBytes : Nat := 5
/-- `FRAME_BYTES` = 5 + 64 × 11 (R10). -/
abbrev frameBytes : Nat := 709
/-- `SLOT_BITS` = 1 start + 8 data + 2 stop (R10). -/
abbrev slotBits : Nat := 11
/-- `FRAME_BITS` = 8 × 709 (R10). -/
abbrev frameBits : Nat := 5672
/-- `DMX_BIT_RATE`: 250 000 bit/s (R10). -/
abbrev dmxBitRate : Nat := 250000
/-- The bit time of `DMX_BIT_RATE`: 4 µs (R10, R72). -/
abbrev dmxBitTimeUs : Nat := 4
/-- `TRANSPORT_BIT_CLOCK`: 250 000 Hz, one transport bit per DMX bit (R10; 90_conflicts.md C1). -/
abbrev transportBitClock : Nat := dmxBitRate

/-- The bit order argument of `configure` (R119). The core only ever passes `lsbFirst` (R107). -/
inductive BitOrder where
  | lsbFirst
  | msbFirst
  deriving DecidableEq, Repr

/-- The parameters of R10 that are no fixed count: those with a default, which the spec calls configuration fields
that a claim may fix or quantify over, and those it leaves OPEN. -/
structure Config where
  /-- `HEADER_PATTERN`: the five bytes `HEADER[0..4]`, under the constraint of R73. -/
  header : List Byte
  /-- `REFRESH_INTERVAL_MS`: milliseconds, unsigned. -/
  refreshMs : Nat
  /-- `RESET_LAST_TX`: the value of `lastTx` after reset. -/
  resetLastTx : Time
  /-- `TRANSPORT_MODE` (OPEN): the framing or clock mode handed to `configure`. -/
  transportMode : Nat
  /-- `PIN` (OPEN): the physical line that `routePhysicalPin` binds. -/
  pin : Nat
  /-- `IDLE_LEVEL` (OPEN): the level of the signal line between transfers. -/
  idleLevel : Bool
  deriving DecidableEq, Repr

/-- The free value of `TRANSPORT_MODE` (R10 OPEN, D20; log entry 4). -/
opaque freeTransportMode : Nat

/-- The free value of `PIN` (R10 OPEN, D20; log entry 4). -/
opaque freePin : Nat

/-- The free value of `IDLE_LEVEL` (R10 OPEN, D3; log entry 4). -/
opaque freeIdleLevel : Bool

/-- DESIGN CHOICE: the free value of the line's level at bit time `n`, past the last of the 5672 bits, of the
`transfer`-th transfer while it is still in flight: the spec states no level there (log entry 16). -/
opaque freeLevelAfterFrame (transfer n : Nat) : Bool

/-- DESIGN CHOICE: the free value of the line's level, as read at time `n`, before the first transfer and while the pin
is not routed (`routed` tells which): the spec gives IDLE_LEVEL only between transfers (log entry 17). -/
opaque freeLevelBeforeTransfer (routed : Bool) (n : Nat) : Bool

end Sys2Proof
end

