-- ==== Sys2Proof/Machine/Constants.lean ====
section
/-! DEFINITION. The constant tables (R32): the block skeleton (R76), the default header (R74), and the parameters this hardware takes (R10). -/

namespace Sys2Proof.Machine

/-- `SKEL[0..10]` (R76). -/
def skel : List Byte :=
  [0x00#8, 0x06#8, 0x30#8, 0x80#8, 0x01#8, 0x0C#8, 0x60#8, 0x00#8, 0x03#8, 0x18#8, 0xC0#8]

/-- The default `HEADER[0..4]` (R74): Break of 24 bits, MAB of 5 bits. -/
def defaultHeader : List Byte := [0x00#8, 0x00#8, 0x00#8, 0x1F#8, 0xC0#8]

/-- The default `REFRESH_INTERVAL_MS` (R10, R117). -/
def defaultRefreshMs : Nat := 400

/-- The default `RESET_LAST_TX` (R10, D13). -/
def defaultResetLastTx : Time := 0#32

/-- The parameters of R10 as this hardware takes them: the defaults, and free values where the spec leaves them OPEN
(log entry 4). -/
def standardConfig : Config where
  header := defaultHeader
  refreshMs := defaultRefreshMs
  resetLastTx := defaultResetLastTx
  transportMode := freeTransportMode
  pin := freePin
  idleLevel := freeIdleLevel

end Sys2Proof.Machine
end

