-- ==== Sys2Proof/Machine/State.lean ====
section
/-! DEFINITION. The machine's state as plain data: the elements of R20, the transport's of R118, the host interface, the parameters of R10 and the schedule of the agents; the reasons a step can stop; and the state at power-on. -/

namespace Sys2Proof.Machine

/-- `life` (R22). -/
inductive Life where
  | uninit
  | ready
  | resetWait
  deriving DecidableEq, Repr

/-- The fault codes of R109, in the order of their numbers 1 to 6. -/
inductive FaultCode where
  | uninitializedUse
  | doubleInitialize
  | callDuringReset
  | readOutOfRange
  | illegalCommand
  | reservedBits
  deriving DecidableEq, Repr

/-- What `raise Fault(code)(info)` leaves in `fault` (R110): `info` is the command word, or the index for
`READ_OUT_OF_RANGE` (R109). -/
structure FaultRecord where
  code : FaultCode
  info : Word
  deriving DecidableEq, Repr

/-- Why the machine stops. -/
inductive Fault where
  /-- Raised by `step`, and by every meaning, at a turn of the host or of the core once `fault` holds a record: no core
  step is enabled after a fault (R110). Safe: the run has no further step to prove anything of. -/
  | coreStopped (code : FaultCode) (info : Word)
  deriving DecidableEq, Repr

/-- Why the model gives a step no meaning. -/
inductive Refusal where
  /-- Raised by a dispatch arm whose instruction has no meaning yet (none in this model). Safe. -/
  | notModelled (mnemonic : String)
  /-- Raised at the decoder for a command whose byte list has another length than its word calls for, and by the
  meaning of `setChannels` for such a term: it is never executed (R65, D21). Safe: no claim rests on it. -/
  | dataLength (word : Word)
  /-- Raised by `transferAsync` while a transfer is in flight: unreachable, and refused by R121 (I16). Safe. -/
  | transferWhileBusy
  deriving DecidableEq, Repr

/-- The address spaces that hold state: `CH` and `FB` (R40). -/
inductive Space where
  | ch
  | fb
  deriving DecidableEq, Repr

/-- The contents of `CH` and `FB`, each a list of cells in the canonical form `Memory.wf` states. -/
structure Memory where
  ch : List Host.Cell
  fb : List Host.Cell
  deriving DecidableEq, Repr

/-- `tCfg` (R118): what `configure` was given. -/
structure TransportCfg where
  clockHz : Nat
  bitOrder : BitOrder
  mode : Nat
  deriving DecidableEq, Repr

/-- One turn of an agent (R12), and the input that comes with it (log entry 1). -/
inductive Turn where
  /-- The host issues a command, which the core executes. -/
  | host (c : Command)
  /-- The core takes its own step, `ResetPoll` (R105). -/
  | core
  /-- The transport takes its completion step (R122). -/
  | transport
  /-- The host's clock: the time input `NOW` becomes `t` (R95). -/
  | clock (t : Time)
  deriving DecidableEq, Repr

/-- The state of the machine. -/
structure State where
  /-- The parameters of R10, which no step changes (R31; log entry 4). -/
  cfg : Config
  /-- `life` (R22). -/
  life : Life
  /-- `ch[0..511]` and `fb[0..708]` (R23, R25). -/
  mem : Memory
  /-- `hwm` (R24). -/
  hwm : BitVec 10
  /-- `dirty` (R26). -/
  dirty : Bool
  /-- `pending` (R27). -/
  pending : Bool
  /-- `lastTx` (R28). -/
  lastTx : Time
  /-- `fault` (R29). -/
  fault : Option FaultRecord
  /-- `tBusy` (R118). -/
  tBusy : Bool
  /-- `tFrame` (R118). -/
  tFrame : Option (List Byte)
  /-- `tCfg` (R118). -/
  tCfg : Option TransportCfg
  /-- `tPin` (R118). -/
  tPin : Bool
  /-- `txLog` (R118), oldest first. -/
  txLog : List (Time × List Byte)
  /-- The time input `NOW` as it stands (R95). -/
  now : Time
  /-- The bytes answered by `getChannel`, oldest first (R63). -/
  responses : List Byte
  /-- The turns the agents will take, next first (R12; log entry 1). -/
  turns : List Turn
  deriving DecidableEq, Repr

/-- The machine at power-on (R38, R118, R129): `UNINIT`, no fault, transport idle, nothing scheduled. The elements R38
leaves unspecified hold the values of R39 (log entries 2 and 3). -/
def State.reset : State where
  cfg := standardConfig
  life := .uninit
  mem := ⟨[], []⟩
  hwm := 0#10
  dirty := false
  pending := false
  lastTx := defaultResetLastTx
  fault := none
  tBusy := false
  tFrame := none
  tCfg := none
  tPin := false
  txLog := []
  now := 0#32
  responses := []
  turns := []

end Sys2Proof.Machine
end

