-- ==== Sys2Proof/Machine/Ops.lean ====
section
/-! DEFINITION. The operations every meaning is written over: reading and writing a byte of a space (R14, R40), recording a fault (R110), the preconditions of R80, and answering the host (R15). -/

namespace Sys2Proof.Machine

/-- The three outcomes of a step of this machine. -/
abbrev Result : Type := Host.Outcome State Fault Refusal

/-! ### The address spaces -/

/-- The bytes of a space (R40). -/
def Space.size : Space → Nat
  | .ch => 512
  | .fb => 709

/-- What an address no cell lists reads as: the contents the reset operation leaves (R39), with the default header
(log entry 7). -/
def unlisted : Space → Nat → Byte
  | .ch, _ => 0#8
  | .fb, a => if a < 5 then defaultHeader.getD a 0#8 else skel.getD ((a - 5) % 11) 0#8

/-- The byte a cell list of space `sp` holds at address `a`. -/
def cellsRead (sp : Space) : List Host.Cell → Nat → Byte
  | [], a => unlisted sp a
  | (b, v) :: rest, a => if a = b then v else cellsRead sp rest a

/-- The cell list with `v` at address `a`, in canonical form: a byte equal to the unlisted one has no cell. -/
def cellsWrite (sp : Space) : List Host.Cell → Nat → Byte → List Host.Cell
  | [], a, v => if v = unlisted sp a then [] else [(a, v)]
  | (b, w) :: rest, a, v =>
    if a < b then (if v = unlisted sp a then (b, w) :: rest else (a, v) :: (b, w) :: rest)
    else if a = b then (if v = unlisted sp a then rest else (a, v) :: rest)
    else (b, w) :: cellsWrite sp rest a v

/-- The canonical form of a cell list of space `sp`: addresses strictly rising, inside the space, and no cell equal to
what its address reads as unlisted. -/
abbrev cellsWf (sp : Space) (l : List Host.Cell) : Prop :=
  l.Pairwise (fun c d => c.1 < d.1) ∧ ∀ c ∈ l, c.1 < sp.size ∧ c.2 ≠ unlisted sp c.1

/-- The cells of one space. -/
def Memory.cells (m : Memory) : Space → List Host.Cell
  | .ch => m.ch
  | .fb => m.fb

/-- Both spaces are in canonical form. -/
abbrev Memory.wf (m : Memory) : Prop := cellsWf .ch m.ch ∧ cellsWf .fb m.fb

/-- `MemRead(space, a, 1)` (R14) of `CH` or `FB`; every meaning keeps `a` inside the space. -/
def Memory.read (m : Memory) (sp : Space) (a : Nat) : Byte := cellsRead sp (m.cells sp) a

/-- `MemWrite(space, a, 1, v)` (R14). An address outside the space, which no run reaches, is not written (log
entry 7). -/
def Memory.write (m : Memory) (sp : Space) (a : Nat) (v : Byte) : Memory :=
  if a < sp.size then
    match sp with
    | .ch => { m with ch := cellsWrite .ch m.ch a v }
    | .fb => { m with fb := cellsWrite .fb m.fb a v }
  else m

/-- Bytes written at `a` and on, in ascending order (R48). -/
def Memory.writeRun (m : Memory) (sp : Space) (a : Nat) : List Byte → Memory
  | [] => m
  | v :: vs => (m.write sp a v).writeRun sp (a + 1) vs

/-- The bytes of a whole space, at increasing addresses. -/
def Memory.bytes (m : Memory) (sp : Space) : List Byte := (List.range sp.size).map (m.read sp)

/-- `MemRead(ROM, a, 1)`: `HEADER[0..4]`, then `SKEL[0..10]` (R32, R40). -/
def romRead (cfg : Config) (a : Nat) : Byte :=
  if a < 5 then cfg.header.getD a 0#8 else skel.getD (a - 5) 0#8

/-- `HEADER[0..4]` as the ROM holds it. -/
def romHeader (cfg : Config) : List Byte := (List.range 5).map (romRead cfg)

/-- `SKEL[0..10]` as the ROM holds it. -/
def romSkel (cfg : Config) : List Byte := (List.range 11).map fun o => romRead cfg (5 + o)

/-! ### Faults (R109, R110). There is no trap entry, no handler and no return from one (R114). -/

/-- The code numbers of R109. -/
def FaultCode.number : FaultCode → Nat
  | .uninitializedUse => 1
  | .doubleInitialize => 2
  | .callDuringReset => 3
  | .readOutOfRange => 4
  | .illegalCommand => 5
  | .reservedBits => 6

/-- `raise Fault(code)(info)` (R110): the record is the only change. -/
def raise (code : FaultCode) (info : Word) (s : State) : Result :=
  .next { s with fault := some ⟨code, info⟩ }

/-- A core step, which is enabled only while `fault = none` (R110). -/
def whileRunning (s : State) (k : Result) : Result :=
  match s.fault with
  | some f => .fault (.coreStopped f.code f.info)
  | none => k

/-- The common precondition of every operation but `initialize` (R80), in the order of R112. -/
def whenReady (i : Instr) (s : State) (k : Result) : Result :=
  whileRunning s <|
    match s.life with
    | .resetWait => raise .callDuringReset i.word s
    | .uninit => raise .uninitializedUse i.word s
    | .ready => k

/-! ### Answers to the host -/

/-- `emit Read(v)` (R15). -/
def emitRead (v : Byte) (s : State) : State := { s with responses := s.responses ++ [v] }

/-! ### The lifecycle -/

/-- The core starts to wait for the transport (R104, R107). -/
def enterResetWait (s : State) : State := { s with life := .resetWait }

end Sys2Proof.Machine
end

