-- ==== Sys2Proof/Machine/Flags.lean ====
section
/-! DEFINITION. The two flags (R30), each set and cleared in one place, and the refresh test (R96). -/

namespace Sys2Proof.Machine

/-- `dirty <- 1` (R81). -/
def setDirty (s : State) : State := { s with dirty := true }

/-- `dirty <- 0` (R97). -/
def clearDirty (s : State) : State := { s with dirty := false }

/-- `pending <- 1` (R97). -/
def setPending (s : State) : State := { s with pending := true }

/-- `pending <- 0` (R97). -/
def clearPending (s : State) : State := { s with pending := false }

/-- `(now - lastTx) mod 2^32` (R96). -/
def elapsed (now lastTx : Time) : Nat := (now - lastTx).toNat

/-- `RefreshDue(now, lastTx)` (R96): strictly more than the interval. -/
def refreshDue (cfg : Config) (now lastTx : Time) : Bool := elapsed now lastTx > cfg.refreshMs

end Sys2Proof.Machine
end

