-- ==== Sys2Proof/Machine/Operands.lean ====
section
/-! DEFINITION. Operand assembly (R64): every field is zero-extended, the sum of start and length is exact, and the bounds tests of R81 and R83. -/

namespace Sys2Proof.Machine

/-- `zext` of an index, start or length field (R64). -/
def operand (f : Field) : Nat := f.toNat

/-- An index as the 32-bit info of a fault record (R109). -/
def indexInfo (index : Field) : Word := index.setWidth 32

/-- The bound test of a write: the exact sum `start + length` does not exceed `NCH` (R41, R81). -/
def writeAccepted (start length : Nat) : Bool := start + length ≤ nch

/-- The bound test of a read: the index is in 0..511 (R83). -/
def readInRange (index : Nat) : Bool := index < nch

/-- `max(hwm, top)` (R81); `top` is at most 512, so 10 bits hold it. -/
def raiseHwm (hwm : BitVec 10) (top : Nat) : BitVec 10 := BitVec.ofNat 10 (max hwm.toNat top)

end Sys2Proof.Machine
end

