-- ==== Sys2Proof/Machine/Channel.lean ====
section
/-! DEFINITION. The channel access operations: setChannels (R81), setChannel (R82), getChannel (R83). -/

namespace Sys2Proof.Machine

/-- The body of `setChannels(start, data, length)` (R81): a range that would pass index 511 is dropped whole. -/
def writeChannels (start length : Nat) (data : List Byte) (s : State) : State :=
  if writeAccepted start length then
    setDirty { s with mem := s.mem.writeRun .ch start data, hwm := raiseHwm s.hwm (start + length) }
  else s

/-- `setChannels(start, data, length)` (R81). A byte list of another length than `length` is never executed (R65). -/
def execSetChannels (start length : Field) (data : List Byte) (s : State) : Result :=
  if Instr.dataFits length data then
    whenReady (.setChannels start length data) s
      (.next (writeChannels (operand start) (operand length) data s))
  else .refused (.dataLength (Instr.setChannels start length data).word)

/-- `setChannel(index, value)` (R82): the write of R81 with length 1. -/
def execSetChannel (index : Field) (value : Byte) (s : State) : Result :=
  whenReady (.setChannel index value) s (.next (writeChannels (operand index) 1 [value] s))

/-- `getChannel(index)` (R83). -/
def execGetChannel (index : Field) (s : State) : Result :=
  whenReady (.getChannel index) s <|
    if readInRange (operand index) then .next (emitRead (s.mem.read .ch (operand index)) s)
    else raise .readOutOfRange (indexInfo index) s

end Sys2Proof.Machine
end

