-- ==== Sys2Proof/Machine/Transport.lean ====
section
/-! DEFINITION. The Serial Transport as the core's rules see it: configure and routePhysicalPin (R119), isBusy (R120), transferAsync (R121) and the completion step (R122). -/

namespace Sys2Proof.Machine

/-- `Transport.configure(clockRate, bitOrder, mode)` (R119). -/
def configure (clockHz : Nat) (bitOrder : BitOrder) (mode : Nat) (s : State) : State :=
  { s with tCfg := some ⟨clockHz, bitOrder, mode⟩ }

/-- `Transport.routePhysicalPin()` (R119). -/
def routePhysicalPin (s : State) : State := { s with tPin := true }

/-- `Transport.isBusy()` (R120). -/
def isBusy (s : State) : Bool := s.tBusy

/-- The 709 bytes of the Transport Frame Buffer, at increasing offsets (R25, R44). -/
def fbBytes (s : State) : List Byte := s.mem.bytes .fb

/-- `Transport.transferAsync(fb, 709)` at a tick that sampled `now` (R121); refused while a transfer is in flight. -/
def transferAsync (now : Time) (s : State) : Result :=
  if s.tBusy then .refused .transferWhileBusy
  else .next { s with tBusy := true, tFrame := some (fbBytes s), txLog := s.txLog ++ [(now, fbBytes s)] }

/-- `TransportComplete()` (R122), enabled while `tBusy = 1`; a turn the transport cannot use changes nothing (log
entry 10). -/
def transportComplete (s : State) : State :=
  if s.tBusy then { s with tBusy := false, tFrame := none } else s

end Sys2Proof.Machine
end

