-- ==== Sys2Proof/Machine/Lifecycle.lean ====
section
/-! DEFINITION. The lifecycle: reset (R104), its wait (R105) and reinitialisation (R106), and initialize (R107). -/

namespace Sys2Proof.Machine

/-- The Slot Blocks `0 .. n-1` written with the skeleton (R106). -/
def skeletonBlocks (cfg : Config) : Nat → Memory → Memory
  | 0, m => m
  | b + 1, m => (skeletonBlocks cfg b m).writeRun .fb (5 + 11 * b) (romSkel cfg)

/-- The memory part of `ResetFinish` (R106): header, all Slot Blocks, Channel Table. Irreducible, so that no proof
runs its 1221 writes by accident. -/
@[irreducible] def resetMemory (cfg : Config) (m : Memory) : Memory :=
  (skeletonBlocks cfg 64 (m.writeRun .fb 0 (romHeader cfg))).writeRun .ch 0 (List.replicate 512 0#8)

/-- `ResetFinish()` (R106): one atomic step to the values of R39; the transport's state is not touched (R118). -/
def resetFinish (s : State) : State :=
  { s with
    mem := resetMemory s.cfg s.mem
    hwm := 0#10
    dirty := false
    pending := false
    lastTx := s.cfg.resetLastTx
    life := .ready }

/-- `ResetPoll()` (R105): hold while the transport is busy. -/
def resetPoll (s : State) : State := if isBusy s then s else resetFinish s

/-- `reset()` (R104). -/
def execReset (s : State) : Result := whenReady .reset s (.next (enterResetWait s))

/-- The body of `initialize()` (R107): configure the transport, then route the pin, then wait as `reset` does. -/
def bringUp (s : State) : State :=
  enterResetWait (routePhysicalPin (configure transportBitClock .lsbFirst s.cfg.transportMode s))

/-- `initialize()` (R107), the only operation of `UNINIT`, with the faults in the order of R112. -/
def execInitializeCore (s : State) : Result :=
  whileRunning s <|
    match s.life with
    | .resetWait => raise .callDuringReset Instr.initializeCore.word s
    | .ready => raise .doubleInitialize Instr.initializeCore.word s
    | .uninit => .next (bringUp s)

end Sys2Proof.Machine
end

