-- ==== Sys2Proof/Machine/Encoder.lean ====
section
/-! DEFINITION. The bit encoder: EncodeBlock (R87), EncodeUpTo (R88) and EncodeFrame (R89). -/

namespace Sys2Proof.Machine

/-- `out[q div 8] <- out[q div 8] | (bit << (q mod 8))` (R87). -/
def orBit (out : List Byte) (q : Nat) (bit : Bool) : List Byte :=
  out.modify (q / 8) fun x => x ||| ((if bit then 1#8 else 0#8) <<< (q % 8))

/-- The eight data bits of slot `k`, LSB first from block bit `11 k + 1` (R87, R77). -/
def orSlot (out : List Byte) (k : Nat) (c : Byte) : List Byte :=
  (List.range 8).foldl (fun o j => orBit o (11 * k + 1 + j) (c.getLsbD j)) out

/-- `EncodeBlock(c0..c7)` (R87), with `c k` the byte `ck`. -/
def encodeBlock (c : Nat → Byte) : List Byte :=
  (List.range 8).foldl (fun out k => orSlot out k (c k)) skel

/-- The blocks `0 .. n-1` rewritten from the Channel Table, in ascending order (R88). -/
def encodeBlocks : Nat → Memory → Memory
  | 0, m => m
  | b + 1, m =>
    let m' := encodeBlocks b m
    m'.writeRun .fb (5 + 11 * b) (encodeBlock fun k => m'.read .ch (8 * b + k))

/-- `EncodeUpTo(h)` (R88): the blocks `b` with `8 b < h`. -/
def encodeUpTo (h : Nat) (m : Memory) : Memory := encodeBlocks ((h + 7) / 8) m

/-- The re-encode step of `serviceTick` (R97): `EncodeUpTo(hwm)`. -/
def reencode (s : State) : State := { s with mem := encodeUpTo s.hwm.toNat s.mem }

/-- `EncodeFrame(ch)` (R89), with `ch i` the byte of channel `i` and the five header bytes given. No step executes
it; it is irreducible, so that no proof computes a frame by accident. -/
@[irreducible] def encodeFrame (header : List Byte) (ch : Nat → Byte) : List Byte :=
  header ++ (List.range 64).flatMap fun b => encodeBlock fun k => ch (8 * b + k)

end Sys2Proof.Machine
end

