-- ==== Sys2Proof/Machine/Scheduler.lean ====
section
/-! DEFINITION. The refresh and transmission scheduler: serviceTick (R97), in the gated order (R98, C3). -/

namespace Sys2Proof.Machine

/-- Step 2 of the tick (R97): re-encode a dirty table and owe a transfer. -/
def encodeIfDirty (s : State) : State :=
  if s.dirty then setPending (clearDirty (reencode s)) else s

/-- Step 4 of the tick (R97): start the transfer, record the sampled time, clear `pending`. -/
def startTransfer (now : Time) (s : State) : Result :=
  match transferAsync now s with
  | .next t => .next (clearPending { t with lastTx := now })
  | .fault f => .fault f
  | .refused r => .refused r

/-- Steps 3 and 4 of the tick (R97): transmit if a transfer is owed or the refresh is due. -/
def transmitIfOwed (now : Time) (s : State) : Result :=
  if s.pending || refreshDue s.cfg now s.lastTx then startTransfer now s else .next s

/-- `serviceTick()` (R97): the transport is asked once, first, and a busy tick changes nothing. -/
def execServiceTick (s : State) : Result :=
  whenReady .serviceTick s <|
    if isBusy s then .next s else transmitIfOwed s.now (encodeIfDirty s)

end Sys2Proof.Machine
end

