-- ==== Sys2Proof/Machine/Dispatch.lean ====
section
/-! DEFINITION. The meaning of every operation, one arm per constructor of Instr. -/

namespace Sys2Proof.Machine

def exec (i : Instr) (s : State) : Host.Outcome State Fault Refusal :=
  match i with
  | .initializeCore => Sys2Proof.Machine.execInitializeCore s
  | .reset => Sys2Proof.Machine.execReset s
  | .serviceTick => Sys2Proof.Machine.execServiceTick s
  | .setChannel index value => Sys2Proof.Machine.execSetChannel index value s
  | .setChannels start length data => Sys2Proof.Machine.execSetChannels start length data s
  | .getChannel index => Sys2Proof.Machine.execGetChannel index s

end Sys2Proof.Machine
end

