-- ==== Sys2Proof/Machine/Agents.lean ====
section
/-! DEFINITION. What each agent does at its turn (R12): the host's command through the decoder (R68) to its meaning, the core's own step (R105), the transport's completion (R122), the clock (R95). -/

namespace Sys2Proof.Machine

/-- The core accepts a command: the word is decoded before anything else is checked (R68, R112). -/
def hostTurn (c : Command) (s : State) : Result :=
  whileRunning s <|
    match decode c with
    | .illegalCommand => raise .illegalCommand c.word s
    | .reservedBits => raise .reservedBits c.word s
    | .dataLength => .refused (.dataLength c.word)
    | .op i => exec i s

/-- The core's own turn: `ResetPoll` while it waits (R105); otherwise it has no step and nothing changes (log
entry 10). -/
def coreTurn (s : State) : Result :=
  whileRunning s <|
    match s.life with
    | .resetWait => .next (resetPoll s)
    | .uninit => .next s
    | .ready => .next s

/-- The transport's turn (R122). A fault of the core does not stop it (R110). -/
def transportTurn (s : State) : Result := .next (transportComplete s)

/-- The host's clock moves the time input (R95, D23: to any value). -/
def clockTurn (t : Time) (s : State) : Result := .next { s with now := t }

/-- The next turn taken, which leaves the schedule; with none scheduled the turn is the core's. -/
def takeTurn (s : State) : Result :=
  match s.turns with
  | [] => coreTurn s
  | .host c :: rest => hostTurn c { s with turns := rest }
  | .core :: rest => coreTurn { s with turns := rest }
  | .transport :: rest => transportTurn { s with turns := rest }
  | .clock t :: rest => clockTurn t { s with turns := rest }

/-- The state in which the very next turn is the host's, issuing the command whose bits are `w` (log entry 9). -/
def issueNext (s : State) (nbits w : Nat) : State :=
  { s with turns := .host (Command.ofBits nbits w) :: s.turns }

end Sys2Proof.Machine
end

