-- ==== Sys2Proof/Machine/Wire.lean ====
section
/-! DEFINITION. The wire: the stream bits of a buffer (R16, R72), the level of the signal line (R124), and the receiver's reading of a frame, DecodeFrame (R91), with the header constraint (R73). -/

namespace Sys2Proof.Machine

/-- `StreamBit(buf, n)`, which R16 defines for `n < 8 × len(buf)`. DESIGN CHOICE: from there on the function answers 0,
a value no rule reads; `lineLevel` does not take its level from it there (log entry 16). -/
def streamBit (buf : List Byte) (n : Nat) : Bool := (buf.getD (n / 8) 0#8).getLsbD (n % 8)

/-- The level of the signal line at bit time `n` of the transfer in flight, and between transfers (R124). R124 gives the
transfer a level at bit times 0 to 5671, and R122 lets it stay in flight after them. DESIGN CHOICE: the level from 5672
on, until completion, is a free value (log entry 16). IDLE_LEVEL is the level between transfers; DESIGN CHOICE: before
the first transfer, and while the pin is not routed, it is a free value too. DEDUCED: every state
with no transfer in flight after the first one is between transfers (log entry 17). -/
def lineLevel (s : State) (n : Nat) : Bool :=
  match s.tFrame with
  | some f => if n < frameBits then streamBit f n else freeLevelAfterFrame s.txLog.length n
  | none => if s.tPin && !s.txLog.isEmpty then s.cfg.idleLevel else freeLevelBeforeTransfer s.tPin n

/-- The physical line the transport drives, once it is routed (R118, R119). -/
def signalLine (s : State) : Option Nat := if s.tPin then some s.cfg.pin else none

/-- The length of the run of `b` at the head of a list of bits, and the bits after it. -/
def takeRun (b : Bool) : List Bool → Nat × List Bool
  | [] => (0, [])
  | x :: xs => if x = b then ((takeRun b xs).1 + 1, (takeRun b xs).2) else (0, x :: xs)

/-- The Start Code slot: `0^9 1^2` (R73). -/
def startCodeSlot : List Bool := List.replicate 9 false ++ [true, true]

/-- The run lengths `(a, B, M)` of a match of `1^a 0^B 1^M 0^9 1^2` with `B >= 23` and `M >= 3` (R73), if the bits are
one. -/
def headerRuns (bits : List Bool) : Option (Nat × Nat × Nat) :=
  let (a, bits1) := takeRun true bits
  let (b, bits2) := takeRun false bits1
  let (m, bits3) := takeRun true bits2
  if bits3 = startCodeSlot ∧ 23 ≤ b ∧ 3 ≤ m then some (a, b, m) else none

/-- The 40 header stream bits of a buffer (R72). -/
def headerBits (buf : List Byte) : List Bool := (List.range 40).map (streamBit buf)

/-- The constraint on `HEADER_PATTERN` (R73). -/
def headerValid (header : List Byte) : Bool := header.length == 5 && (headerRuns (headerBits header)).isSome

/-- `DecodeSlot(buf, pos)` (R91), none for a framing error. -/
def decodeSlot (buf : List Byte) (pos : Nat) : Option Byte :=
  if streamBit buf pos ∨ ¬ streamBit buf (pos + 9) ∨ ¬ streamBit buf (pos + 10) then none
  else some (BitVec.ofNat 8 ((List.range 8).foldl (fun acc j => acc + (streamBit buf (pos + 1 + j)).toNat <<< j) 0))

/-- What a receiver makes of a frame (R91). -/
inductive Reception where
  | frame (breakBits mabBits : Nat) (startCode : Byte) (slots : List Byte)
  | malformedHeader
  | malformedSlot (i : Nat)
  deriving DecidableEq, Repr

/-- The slots `i .. i + n - 1` of a buffer, or the first that is malformed (R91). -/
def decodeSlots (buf : List Byte) (i : Nat) : Nat → Except Nat (List Byte)
  | 0 => .ok []
  | n + 1 =>
    match decodeSlot buf (40 + 11 * i) with
    | none => .error i
    | some v =>
      match decodeSlots buf (i + 1) n with
      | .ok vs => .ok (v :: vs)
      | .error j => .error j

/-- `DecodeFrame(buf)` (R91). -/
def decodeFrame (buf : List Byte) : Reception :=
  match headerRuns (headerBits buf), decodeSlot buf 29 with
  | some (_, b, m), some startCode =>
    match decodeSlots buf 0 512 with
    | .ok slots => .frame b m startCode slots
    | .error i => .malformedSlot i
  | _, _ => .malformedHeader

end Sys2Proof.Machine
end

