-- ==== Sys2Proof/Safety.lean ====
section
/-! DEFINITION. The terms claims use: a ready core, a safe state, the invariants of 10_state.md section 8 and of the transport, and the sequences of operations that R84, R86 and R101 speak of. -/

namespace Sys2Proof.Machine

/-- The common precondition of R80. -/
abbrev State.Ready (s : State) : Prop := s.life = .ready ∧ s.fault = none

/-- No precondition has been broken (R29). -/
abbrev State.Safe (s : State) : Prop := s.fault = none

/-- Channel `i` of the Channel Table (R23). -/
def chanAt (s : State) (i : Nat) : Byte := s.mem.read .ch i

/-- Byte `o` of the Transport Frame Buffer (R25). -/
def fbAt (s : State) (o : Nat) : Byte := s.mem.read .fb o

/-- `EncodeFrame(ch)` of the state's own table and header (R89). -/
def tableFrame (s : State) : List Byte := encodeFrame (romHeader s.cfg) (chanAt s)

/-! ### What holds of every state from power-on -/

/-- The transport's elements agree with each other and with the buffer: while a transfer is in flight, its bytes are
the buffer's, and it is the last entry of the log, made at `lastTx` (R53, R54, R121, R122). -/
def TransferInFlight (s : State) : Prop :=
  match s.tFrame with
  | none => s.tBusy = false
  | some f => s.tBusy = true ∧ f = fbBytes s ∧ s.txLog.getLast? = some (s.lastTx, f)

/-- The transport is unconfigured and idle until `initialize`, and configured as R107 says from then on (R118,
R119). -/
def SetUp (s : State) : Prop :=
  if s.life = .uninit then s.tCfg = none ∧ s.tPin = false ∧ s.tFrame = none ∧ s.txLog = []
  else s.tCfg = some ⟨transportBitClock, .lsbFirst, s.cfg.transportMode⟩ ∧ s.tPin = true

/-- The invariant of every reachable state. -/
structure Inv (s : State) : Prop where
  /-- The memory is in canonical form. -/
  wf : s.mem.wf
  /-- `hwm` of a ready core is a legal value (R20, R24); before the first ResetFinish it is unspecified (R38). -/
  hwm_le : s.life = .ready → s.hwm.toNat ≤ 512
  /-- No operation is running, so a ready core owes no transfer (R99). -/
  pending_clear : s.life = .ready → s.pending = false
  /-- The frame in flight is the buffer (R54). -/
  transfer : TransferInFlight s
  /-- The transport is set up exactly when the core is past `UNINIT`. -/
  setUp : SetUp s
  /-- Every logged transfer covers the whole buffer (R97, C6). -/
  log_length : ∀ e ∈ s.txLog, e.2.length = frameBytes

/-! ### What holds from a completed `initialize` on (R34 to R37) -/

/-- R34: the Header Region holds the header. -/
def HeaderInPlace (s : State) : Prop := ∀ o < 5, fbAt s o = romRead s.cfg o

/-- R35: every Slot Block encodes some eight channel bytes. -/
def BlocksEncoded (s : State) : Prop :=
  ∀ b < 64, ∃ c : Nat → Byte, ∀ o < 11, fbAt s (5 + 11 * b + o) = (encodeBlock c).getD o 0#8

/-- R36: above the High-Water Mark the table is 0 and the blocks are the skeleton. -/
def ZeroAboveMark (s : State) : Prop :=
  (∀ i < 512, s.hwm.toNat ≤ i → chanAt s i = 0#8) ∧
    ∀ b < 64, s.hwm.toNat ≤ 8 * b → ∀ o < 11, fbAt s (5 + 11 * b + o) = skel.getD o 0#8

/-- R37, first sentence: a clean buffer encodes the table. -/
def CleanBufferEncodesTable (s : State) : Prop :=
  s.life = .ready → s.dirty = false → fbBytes s = tableFrame s

/-- R34 to R37, for a core past `UNINIT`. -/
structure Framed (s : State) : Prop where
  past_uninit : s.life ≠ .uninit
  header : HeaderInPlace s
  blocks : BlocksEncoded s
  zeros : ZeroAboveMark s
  clean : CleanBufferEncodesTable s

/-- A core that is ready is framed: `READY` is entered only through ResetFinish (R116). -/
def FramedWhenReady (s : State) : Prop := s.life = .ready → Framed s

/-- Every frame the transport was handed is one a receiver reads as 512 slots after a legal Break, Mark and Start
Code 0 (R35, R91). -/
def WireValid (s : State) : Prop :=
  ∀ e ∈ s.txLog, ∃ breakBits mabBits slots, 23 ≤ breakBits ∧ 3 ≤ mabBits ∧ slots.length = 512 ∧
    decodeFrame e.2 = .frame breakBits mabBits 0#8 slots

/-! ### Sequences of operations -/

/-- Ticks, with any movement of the clock and any completions between them. -/
inductive TickRun (s : State) : State → Prop where
  | done : TickRun s s
  | tick (t u : State) : TickRun s t → exec .serviceTick t = .next u → TickRun s u
  | clock (t : State) (now : Time) : TickRun s t → TickRun s { t with now := now }
  | complete (t : State) : TickRun s t → TickRun s (transportComplete t)

/-- Channel operations one after another, and any ticks among them, with the `(start, length)` of each write in order (R84). -/
inductive ChannelRun : State → List (Nat × Nat) → State → Prop where
  | done (s : State) : ChannelRun s [] s
  | writeRun (s t u : State) (start length : Field) (data : List Byte) (ws : List (Nat × Nat)) :
      exec (.setChannels start length data) s = .next t → ChannelRun t ws u →
      ChannelRun s ((start.toNat, length.toNat) :: ws) u
  | writeOne (s t u : State) (index : Field) (value : Byte) (ws : List (Nat × Nat)) :
      exec (.setChannel index value) s = .next t → ChannelRun t ws u →
      ChannelRun s ((index.toNat, 1) :: ws) u
  | read (s t u : State) (index : Field) (ws : List (Nat × Nat)) :
      exec (.getChannel index) s = .next t → ChannelRun t ws u → ChannelRun s ws u
  | tick (s t u : State) (ws : List (Nat × Nat)) :
      exec .serviceTick s = .next t → ChannelRun t ws u → ChannelRun s ws u

/-- The maximum of `start + length` over the accepted writes of a list, or 0 (R84). -/
def markOf (ws : List (Nat × Nat)) : Nat :=
  ws.foldr (fun w m => if w.1 + w.2 ≤ 512 then max (w.1 + w.2) m else m) 0

/-- Writes, ticks and clock movements with no completion among them (R101). -/
inductive BusyRun (s : State) : State → Prop where
  | done : BusyRun s s
  | writeRun (t u : State) (start length : Field) (data : List Byte) :
      BusyRun s t → exec (.setChannels start length data) t = .next u → BusyRun s u
  | writeOne (t u : State) (index : Field) (value : Byte) :
      BusyRun s t → exec (.setChannel index value) t = .next u → BusyRun s u
  | tick (t u : State) : BusyRun s t → exec .serviceTick t = .next u → BusyRun s u
  | clock (t : State) (now : Time) : BusyRun s t → BusyRun s { t with now := now }

end Sys2Proof.Machine
end

