-- ==== Sys2Proof/Certificates/Slice0/Obligations.lean ====
section
/-! DEFINITION. The statements of the model about the V2DMX core, from the numbered rules of spec/. -/

open Sys2Proof Sys2Proof.Machine

/-! ### Decoding and encoding (30_encoding.md) -/

/-- Words written out from the formats of R60 to R63 (95_test_vectors.md L2.1) decode to the operations they spell, and
words of R67 to their verdicts. -/
def Obligations.SpecWordsDecode : Prop :=
  decode ⟨0x10000000#32, []⟩ = .op .initializeCore ∧
  decode ⟨0x20000000#32, []⟩ = .op .reset ∧
  decode ⟨0x30000000#32, []⟩ = .op .serviceTick ∧
  decode ⟨0x41FF0080#32, []⟩ = .op (.setChannel 511#12 0x80#8) ∧
  decode ⟨0x50080002#32, [0x11#8, 0x22#8]⟩ = .op (.setChannels 8#12 2#12 [0x11#8, 0x22#8]) ∧
  decode ⟨0x62000000#32, []⟩ = .op (.getChannel 512#12) ∧
  decode ⟨0x00000000#32, []⟩ = .illegalCommand ∧
  decode ⟨0x70000000#32, []⟩ = .illegalCommand ∧
  decode ⟨0x18000000#32, []⟩ = .reservedBits ∧
  decode ⟨0x40000100#32, []⟩ = .reservedBits ∧
  decode ⟨0x50008000#32, []⟩ = .reservedBits ∧
  decode ⟨0x60000001#32, []⟩ = .reservedBits

/-- R66: a word spells an operation exactly when `(word & mask) = match` for that operation's row. The byte list beside
the word is as long as R65 calls for. -/
def Obligations.WordSpellsByMatchAndMask : Prop :=
  ∀ (w : Word) (data : List Byte),
    (data = [] →
      (decode ⟨w, data⟩ = .op .initializeCore ↔ w &&& 0xFFFFFFFF#32 = 0x10000000#32) ∧
      (decode ⟨w, data⟩ = .op .reset ↔ w &&& 0xFFFFFFFF#32 = 0x20000000#32) ∧
      (decode ⟨w, data⟩ = .op .serviceTick ↔ w &&& 0xFFFFFFFF#32 = 0x30000000#32) ∧
      ((∃ index value, decode ⟨w, data⟩ = .op (.setChannel index value)) ↔ w &&& 0xF000FF00#32 = 0x40000000#32) ∧
      ((∃ index, decode ⟨w, data⟩ = .op (.getChannel index)) ↔ w &&& 0xF000FFFF#32 = 0x60000000#32)) ∧
    (data.length = w.toNat % 2 ^ 12 →
      ((∃ start length bytes, decode ⟨w, data⟩ = .op (.setChannels start length bytes)) ↔
        w &&& 0xF000F000#32 = 0x50000000#32))

/-- The operands of a decoded command are the fields of formats W, S and R, zero-extended, and the data bytes in order
(R61 to R65). -/
def Obligations.OperandsAreTheFormatsFields : Prop :=
  ∀ (w : Word) (data : List Byte),
    (∀ index value, decode ⟨w, data⟩ = .op (.setChannel index value) →
      index.toNat = w.toNat / 2 ^ 16 % 2 ^ 12 ∧ value.toNat = w.toNat % 2 ^ 8 ∧ data = []) ∧
    (∀ start length bytes, decode ⟨w, data⟩ = .op (.setChannels start length bytes) →
      start.toNat = w.toNat / 2 ^ 16 % 2 ^ 12 ∧ length.toNat = w.toNat % 2 ^ 12 ∧ bytes = data ∧
        data.length = w.toNat % 2 ^ 12) ∧
    (∀ index, decode ⟨w, data⟩ = .op (.getChannel index) →
      index.toNat = w.toNat / 2 ^ 16 % 2 ^ 12 ∧ data = [])

/-- Decoding the command that spells a well-formed operation gives that operation, at every value of every operand. -/
def Obligations.DecodeOfEncodeIsTheOperation : Prop :=
  ∀ i : Instr, i.wellFormed = true → decode (encode i) = .op i

/-- A command that decodes to an operation is the one command that spells it, and the operation is well-formed. -/
def Obligations.EachOperationHasOneCommand : Prop :=
  ∀ (c : Command) (i : Instr), decode c = .op i → encode i = c ∧ i.wellFormed = true

/-- R67: what executing a word that spells no operation does, whatever the lifecycle state. -/
def Obligations.WordsOutsideTheMapRaise : Prop :=
  ∀ (s : State) (c : Command) (rest : List Turn), s.fault = none → s.turns = .host c :: rest →
    (c.word.toNat / 2 ^ 28 = 0 ∨ 7 ≤ c.word.toNat / 2 ^ 28 →
      step s = .next { s with turns := rest, fault := some ⟨.illegalCommand, c.word⟩ }) ∧
    ((1 ≤ c.word.toNat / 2 ^ 28 ∧ c.word.toNat / 2 ^ 28 ≤ 3 ∧ c.word.toNat % 2 ^ 28 ≠ 0) ∨
      (c.word.toNat / 2 ^ 28 = 4 ∧ c.word.toNat / 2 ^ 8 % 2 ^ 8 ≠ 0) ∨
      (c.word.toNat / 2 ^ 28 = 5 ∧ c.word.toNat / 2 ^ 12 % 2 ^ 4 ≠ 0) ∨
      (c.word.toNat / 2 ^ 28 = 6 ∧ c.word.toNat % 2 ^ 16 ≠ 0) →
      step s = .next { s with turns := rest, fault := some ⟨.reservedBits, c.word⟩ })

/-- A `setChannels` word whose byte list has another length than `LEN`, and such a term, is refused and never executed
(30_encoding.md A.2, D21). -/
def Obligations.DataOfAnotherLengthIsRefused : Prop :=
  (∀ (s : State) (w : Word) (data : List Byte) (rest : List Turn),
    s.fault = none → s.turns = .host ⟨w, data⟩ :: rest → w &&& 0xF000F000#32 = 0x50000000#32 →
      data.length ≠ w.toNat % 2 ^ 12 → step s = .refused (.dataLength w)) ∧
  ∀ (s : State) (start length : Field) (data : List Byte), data.length ≠ length.toNat →
    exec (.setChannels start length data) s =
      .refused (.dataLength (Instr.setChannels start length data).word)

/-! ### Steps and agents (00_scope.md R12) -/

/-- At a turn of the host, step takes the turn off the schedule and is exec of the decoded operation. -/
def Obligations.StepRunsTheIssuedOperation : Prop :=
  ∀ (s : State) (c : Command) (rest : List Turn) (i : Instr),
    s.fault = none → s.turns = .host c :: rest → decode c = .op i → step s = exec i { s with turns := rest }

/-- The other turns: the clock sets the time input; the transport completes a transfer in flight and clears nothing
else. An idle transport, and a core that waits for no transfer, do nothing at a turn of their own, and with no turn
scheduled the turn is the core's (the model's choice, log entry 10). -/
def Obligations.StepTakesTheOtherTurns : Prop :=
  ∀ (s : State) (rest : List Turn),
    (∀ t, s.turns = .clock t :: rest → step s = .next { s with turns := rest, now := t }) ∧
    (s.turns = .transport :: rest → s.tBusy = true →
      step s = .next { s with turns := rest, tBusy := false, tFrame := none }) ∧
    (s.turns = .transport :: rest → s.tBusy = false → step s = .next { s with turns := rest }) ∧
    (s.turns = .core :: rest → s.fault = none → s.life ≠ .resetWait → step s = .next { s with turns := rest }) ∧
    (s.turns = [] → step s = step { s with turns := [.core] })

/-! ### Faults (60_exceptions.md G1 and G3) -/

/-- R110: the step that raises a fault changes nothing else; after it no step of the core is enabled, the transport may
still complete, and the record is never cleared. -/
def Obligations.FaultStopsTheCoreForGood : Prop :=
  (∀ s t : State, s.fault = none → t.fault ≠ none → step s = .next t →
    t = { s with turns := s.turns.tail, fault := t.fault }) ∧
  (∀ (s : State) (f : FaultRecord), s.fault = some f →
    (∀ c rest, s.turns = .host c :: rest → step s = .fault (.coreStopped f.code f.info)) ∧
    (∀ rest, s.turns = .core :: rest → step s = .fault (.coreStopped f.code f.info)) ∧
    (∀ i, i.wellFormed = true → exec i s = .fault (.coreStopped f.code f.info)) ∧
    (∀ rest, s.turns = .transport :: rest → s.tBusy = true →
      step s = .next { s with turns := rest, tBusy := false, tFrame := none }) ∧
    (∀ t, step s = .next t → t.fault = some f))

/-- R112: a command that breaks several preconditions records exactly one fault, the first in this order. -/
def Obligations.FirstFaultInOrderIsRecorded : Prop :=
  ∀ (s : State) (c : Command) (rest : List Turn), s.fault = none → s.turns = .host c :: rest →
    (decode c = .illegalCommand →
      step s = .next { s with turns := rest, fault := some ⟨.illegalCommand, c.word⟩ }) ∧
    (decode c = .reservedBits →
      step s = .next { s with turns := rest, fault := some ⟨.reservedBits, c.word⟩ }) ∧
    (∀ i, decode c = .op i → s.life = .resetWait →
      step s = .next { s with turns := rest, fault := some ⟨.callDuringReset, c.word⟩ }) ∧
    (∀ i, decode c = .op i → i ≠ .initializeCore → s.life = .uninit →
      step s = .next { s with turns := rest, fault := some ⟨.uninitializedUse, c.word⟩ }) ∧
    (decode c = .op .initializeCore → s.life = .ready →
      step s = .next { s with turns := rest, fault := some ⟨.doubleInitialize, c.word⟩ }) ∧
    (∀ index, decode c = .op (.getChannel index) → s.life = .ready → 512 ≤ index.toNat →
      step s = .next { s with turns := rest, fault := some ⟨.readOutOfRange, BitVec.ofNat 32 index.toNat⟩ })

/-- While no fault is recorded, every well-formed operation has a next state, in every lifecycle state and every state
of the transport: nothing is refused and nothing stops. -/
def Obligations.EveryOperationHasANextState : Prop :=
  ∀ (i : Instr) (s : State), i.wellFormed = true → s.fault = none → ∃ t, exec i s = .next t

/-! ### Channel access (40_channel_access.md) -/

/-- An accepted `setChannels` (start + length at most 512) puts `data[k]` into channel `start + k`, raises the mark and
sets `dirty`; every other channel, every byte of the frame buffer and every other element is unchanged. -/
def Obligations.AcceptedRunIsWritten : Prop :=
  ∀ (s : State) (start length : Field) (data : List Byte), s.Ready → s.mem.wf → data.length = length.toNat →
    start.toNat + length.toNat ≤ 512 →
    ∃ t, exec (.setChannels start length data) s = .next t ∧
      (∀ k < data.length, chanAt t (start.toNat + k) = data.getD k 0#8) ∧
      (∀ i, i < start.toNat ∨ start.toNat + length.toNat ≤ i → chanAt t i = chanAt s i) ∧
      (∀ o, fbAt t o = fbAt s o) ∧
      t.hwm.toNat = max s.hwm.toNat (start.toNat + length.toNat) ∧
      t = { s with mem := t.mem, hwm := t.hwm, dirty := true }

/-- R85: a write whose start and length pass 512 leaves every state element unchanged. -/
def Obligations.RunPastTheTableChangesNothing : Prop :=
  ∀ (s : State) (start length : Field) (data : List Byte), s.Ready → data.length = length.toNat →
    512 < start.toNat + length.toNat → exec (.setChannels start length data) s = .next s

/-- R71: `setChannel` has the code 0x4, and its meaning is that of `setChannels(index, [value], 1)`. -/
def Obligations.OneChannelIsARunOfOne : Prop :=
  ∀ (index : Field) (value : Byte),
    (encode (.setChannel index value)).word.toNat / 2 ^ 28 = 4 ∧
    ∀ s : State, s.Ready → exec (.setChannel index value) s = exec (.setChannels index 1#12 [value]) s

/-- `setChannel` writes the one channel when the index is at most 511 and is silently dropped otherwise; every other
channel, the frame buffer and every other element is unchanged. -/
def Obligations.OneChannelIsWrittenOrDropped : Prop :=
  ∀ (s : State) (index : Field) (value : Byte), s.Ready → s.mem.wf →
    (index.toNat ≤ 511 → ∃ t, exec (.setChannel index value) s = .next t ∧
      chanAt t index.toNat = value ∧ (∀ i, i ≠ index.toNat → chanAt t i = chanAt s i) ∧
      (∀ o, fbAt t o = fbAt s o) ∧ t.hwm.toNat = max s.hwm.toNat (index.toNat + 1) ∧
      t = { s with mem := t.mem, hwm := t.hwm, dirty := true }) ∧
    (512 ≤ index.toNat → exec (.setChannel index value) s = .next s)

/-- `getChannel` of an index in 0..511 answers the stored byte and changes no state. -/
def Obligations.ReadAnswersTheStoredByte : Prop :=
  ∀ (s : State) (index : Field), s.Ready → index.toNat ≤ 511 →
    exec (.getChannel index) s = .next { s with responses := s.responses ++ [chanAt s index.toNat] }

/-- R86: a byte written is read back, whatever ticks, clock movements and completions come in between. -/
def Obligations.WrittenByteIsReadBack : Prop :=
  ∀ (s : State) (index : Field) (value : Byte), s.Ready → s.mem.wf → index.toNat ≤ 511 →
    ∃ t, exec (.setChannel index value) s = .next t ∧
      ∀ u, TickRun t u → exec (.getChannel index) u = .next { u with responses := u.responses ++ [value] }

/-- R84: after channel operations since the last reset the mark is the maximum of `start + length` over the accepted
writes, or 0; no step but ResetFinish lowers it, and it never exceeds 512. -/
def Obligations.MarkIsMaximumOfAcceptedWrites : Prop :=
  (∀ (s t : State) (ws : List (Nat × Nat)), s.Ready → s.hwm = 0#10 → ChannelRun s ws t →
    t.hwm.toNat = markOf ws) ∧
  (∀ s t : State, step s = .next t →
    s.hwm.toNat ≤ t.hwm.toNat ∨ (s.life = .resetWait ∧ t = resetFinish { s with turns := s.turns.tail })) ∧
  (∀ s t : State, s.hwm.toNat ≤ 512 → step s = .next t → t.hwm.toNat ≤ 512)

/-- The Channel Table changes only where an accepted write of a ready core covers the channel, and at ResetFinish. -/
def Obligations.TableChangesOnlyByWritesAndReset : Prop :=
  ∀ (s t : State) (i : Nat), s.mem.wf → step s = .next t → chanAt t i ≠ chanAt s i →
    (s.life = .resetWait ∧ t = resetFinish { s with turns := s.turns.tail }) ∨
    ∃ c rest, s.turns = .host c :: rest ∧ s.Ready ∧
      ((∃ index value, decode c = .op (.setChannel index value) ∧ index.toNat = i ∧ i ≤ 511 ∧ chanAt t i = value) ∨
        ∃ start length data, decode c = .op (.setChannels start length data) ∧ start.toNat ≤ i ∧
          i < start.toNat + length.toNat ∧ start.toNat + length.toNat ≤ 512 ∧
          chanAt t i = data.getD (i - start.toNat) 0#8)

/-! ### The bit encoder (41_bit_encoder.md, 30_encoding.md part B) -/

/-- R75: where the start bit, the data bits and the stop bits of each slot lie in a block, and where block `b` lies in
the stream of a frame. -/
def Obligations.SlotsLieWhereTheFormatSays : Prop :=
  (∀ (c : Nat → Byte) (k : Nat), k < 8 →
    streamBit (encodeBlock c) (11 * k) = false ∧
    (∀ j < 8, streamBit (encodeBlock c) (11 * k + 1 + j) = (c k).getLsbD j) ∧
    streamBit (encodeBlock c) (11 * k + 9) = true ∧ streamBit (encodeBlock c) (11 * k + 10) = true) ∧
  (∀ (header : List Byte) (ch : Nat → Byte) (b p : Nat), header.length = 5 → b < 64 → p < 88 →
    streamBit (encodeFrame header ch) (40 + 88 * b + p) = streamBit (encodeBlock fun k => ch (8 * b + k)) p ∧
    streamBit (encodeFrame header ch) (40 + 88 * b + p) =
      ((encodeFrame header ch).getD (5 + 11 * b + p / 8) 0#8).getLsbD (p % 8))

/-- R78: the eleven bytes of a block as shift-and-OR formulas. -/
def Obligations.BlockBytesAreTheShiftAndOrFormulas : Prop :=
  ∀ c : Nat → Byte, encodeBlock c =
    [0x00#8 ||| (c 0 <<< 1), 0x06#8 ||| (c 0 >>> 7) ||| (c 1 <<< 4), 0x30#8 ||| (c 1 >>> 4) ||| (c 2 <<< 7),
      0x80#8 ||| (c 2 >>> 1), 0x01#8 ||| (c 3 <<< 2), 0x0C#8 ||| (c 3 >>> 6) ||| (c 4 <<< 5),
      0x60#8 ||| (c 4 >>> 3), 0x00#8 ||| c 5, 0x03#8 ||| (c 6 <<< 3), 0x18#8 ||| (c 6 >>> 5) ||| (c 7 <<< 6),
      0xC0#8 ||| (c 7 >>> 2)]

/-- `EncodeUpTo(h)` writes EncodeBlock of the table into each block `b` with `8 b < h`, and neither the header, nor the
blocks from there on, nor the table. -/
def Obligations.ReencodeRewritesTheBlocksBelowTheBound : Prop :=
  ∀ (m : Memory) (h : Nat), m.wf → h ≤ 512 →
    (∀ b o, b < 64 → o < 11 → (encodeUpTo h m).read .fb (5 + 11 * b + o) =
      if 8 * b < h then (encodeBlock fun k => m.read .ch (8 * b + k)).getD o 0#8 else m.read .fb (5 + 11 * b + o)) ∧
    (∀ o < 5, (encodeUpTo h m).read .fb o = m.read .fb o) ∧
    (∀ i, (encodeUpTo h m).read .ch i = m.read .ch i) ∧
    (encodeUpTo h m).wf

/-- R90: from a state of R34 and R36, every bound from the mark to 512 leaves the whole frame of the table in the
buffer. -/
def Obligations.EncodeBoundIsNotObservable : Prop :=
  ∀ (s : State) (h : Nat), s.mem.wf → HeaderInPlace s → ZeroAboveMark s → s.hwm.toNat ≤ h → h ≤ 512 →
    (encodeUpTo h s.mem).bytes .fb = tableFrame s

/-- R92: EncodeBlock, EncodeFrame and EncodeUpTo depend on the table and the constants only; encoding twice gives the
same bytes. -/
def Obligations.EncodingIgnoresTheOldBuffer : Prop :=
  (∀ c d : Nat → Byte, (∀ k < 8, c k = d k) → encodeBlock c = encodeBlock d) ∧
  (∀ (header : List Byte) (c d : Nat → Byte), (∀ i < 512, c i = d i) → encodeFrame header c = encodeFrame header d) ∧
  (∀ (m n : Memory) (h : Nat), m.wf → n.wf → (∀ i < 512, m.read .ch i = n.read .ch i) →
    ∀ b o, b < 64 → 8 * b < h → o < 11 →
      (encodeUpTo h m).read .fb (5 + 11 * b + o) = (encodeUpTo h n).read .fb (5 + 11 * b + o)) ∧
  (∀ (m : Memory) (h : Nat), m.wf → (encodeUpTo h (encodeUpTo h m)).bytes .fb = (encodeUpTo h m).bytes .fb)

/-- R93: after `setChannel` and an idle tick from a clean state, only the bytes R77 lists for that slot can differ. -/
def Obligations.WriteReachesOnlyItsSlotsBytes : Prop :=
  ∀ (s t u : State) (index : Field) (value : Byte) (o : Nat), s.Ready → Inv s → Framed s → s.dirty = false →
    s.tBusy = false → exec (.setChannel index value) s = .next t → exec .serviceTick t = .next u → o < 709 →
    fbAt u o ≠ fbAt s o →
    index.toNat ≤ 511 ∧
    (o = 5 + 11 * (index.toNat / 8) + (11 * (index.toNat % 8) + 1) / 8 ∨
      ((11 * (index.toNat % 8) + 1) % 8 ≠ 0 ∧
        o = 5 + 11 * (index.toNat / 8) + (11 * (index.toNat % 8) + 1) / 8 + 1))

/-- A receiver reads every table back from the frame that encodes it, under every header R73 allows. -/
def Obligations.ReceiverReadsBackEveryTable : Prop :=
  ∀ (header : List Byte) (ch : Nat → Byte), headerValid header = true →
    ∃ a breakBits mabBits, headerRuns (headerBits header) = some (a, breakBits, mabBits) ∧
      a + breakBits + mabBits = 29 ∧ 23 ≤ breakBits ∧ 3 ≤ mabBits ∧
      decodeFrame (encodeFrame header ch) = .frame breakBits mabBits 0#8 ((List.range 512).map ch)

/-! ### The scheduler (42_scheduler.md) -/

/-- R96: the refresh is due exactly when more than the interval has elapsed, modulo 2^32. -/
def Obligations.RefreshIsDueStrictlyAfterTheInterval : Prop :=
  ∀ (cfg : Config) (now lastTx : Time),
    refreshDue cfg now lastTx = true ↔ (now.toNat + (2 ^ 32 - lastTx.toNat)) % 2 ^ 32 > cfg.refreshMs

/-- The tick of a ready core: nothing while the transport is busy; re-encode and transfer when dirty; transfer the
buffer as it is when a transfer is owed or the refresh is due; else nothing. Every other element is unchanged. -/
def Obligations.TickFollowsTheGatedOrder : Prop :=
  ∀ s : State, s.Ready →
    (s.tBusy = true → exec .serviceTick s = .next s) ∧
    (s.tBusy = false → s.dirty = true → exec .serviceTick s = .next { s with
      mem := encodeUpTo s.hwm.toNat s.mem, dirty := false, pending := false, lastTx := s.now, tBusy := true,
      tFrame := some ((encodeUpTo s.hwm.toNat s.mem).bytes .fb),
      txLog := s.txLog ++ [(s.now, (encodeUpTo s.hwm.toNat s.mem).bytes .fb)] }) ∧
    (s.tBusy = false → s.dirty = false → (s.pending = true ∨ refreshDue s.cfg s.now s.lastTx = true) →
      exec .serviceTick s = .next { s with
        pending := false, lastTx := s.now, tBusy := true, tFrame := some (fbBytes s),
        txLog := s.txLog ++ [(s.now, fbBytes s)] }) ∧
    (s.tBusy = false → s.dirty = false → s.pending = false → refreshDue s.cfg s.now s.lastTx = false →
      exec .serviceTick s = .next s)

/-- R102: an idle tick of a clean, ready core sends the unchanged buffer once when the refresh is due, and starts
nothing when it is not. `pending` is clear between operations (R99). -/
def Obligations.RefreshSendsTheUnchangedBuffer : Prop :=
  ∀ s : State, s.Ready → s.dirty = false → s.pending = false → s.tBusy = false →
    ((s.now.toNat + (2 ^ 32 - s.lastTx.toNat)) % 2 ^ 32 > s.cfg.refreshMs →
      ∃ t, exec .serviceTick s = .next t ∧ t.txLog = s.txLog ++ [(s.now, fbBytes s)] ∧ t.tBusy = true ∧
        t.lastTx = s.now ∧ t.mem = s.mem ∧ t.dirty = false) ∧
    ((s.now.toNat + (2 ^ 32 - s.lastTx.toNat)) % 2 ^ 32 ≤ s.cfg.refreshMs → exec .serviceTick s = .next s)

/-- R99: `pending` is 0 at the end of every tick, and whenever no operation is running. -/
def Obligations.NoTransferIsOwedBetweenOperations : Prop :=
  (∀ s t : State, s.Ready → s.tBusy = false → exec .serviceTick s = .next t → t.pending = false) ∧
  (∀ s t : State, s.pending = false → step s = .next t → t.pending = false)

/-- R100: while the transport is busy no step starts a transfer or writes the frame buffer; a step starts at most one,
from an idle transport, with the buffer's bytes; and no step ever asks a busy transport for one. -/
def Obligations.BusyTransportIsLeftAlone : Prop :=
  (∀ s t : State, s.tBusy = true → step s = .next t →
    t.mem.fb = s.mem.fb ∧ t.txLog = s.txLog ∧ (t.tBusy = true → t.tFrame = s.tFrame)) ∧
  (∀ s t : State, step s = .next t → t.txLog ≠ s.txLog →
    s.tBusy = false ∧ t.tBusy = true ∧ t.tFrame = some (fbBytes t) ∧ t.txLog = s.txLog ++ [(s.now, fbBytes t)]) ∧
  (∀ s : State, step s ≠ .refused .transferWhileBusy) ∧
  (∀ (i : Instr) (s : State), exec i s ≠ .refused .transferWhileBusy)

/-- R101: writes made while every tick finds the transport busy are sent together, once, by the first tick that finds
it idle; until then no tick touches the buffer or starts a transfer. -/
def Obligations.WritesWhileBusyGoOutInOneFrame : Prop :=
  ∀ s t : State, s.Ready → Inv s → Framed s → s.tBusy = true → BusyRun s t →
    (fbBytes t = fbBytes s ∧ t.txLog = s.txLog) ∧
    (t.dirty = true → ∃ u, exec .serviceTick (transportComplete t) = .next u ∧
      u.txLog = s.txLog ++ [(t.now, tableFrame t)] ∧ u.tFrame = some (tableFrame t) ∧ fbBytes u = tableFrame t ∧
      u.dirty = false ∧ u.tBusy = true)

/-- After the tick that sends new data, the signal line carries, slot after slot from stream bit 40 on, every channel
of the table: a start bit 0, the data LSB first, two stop bits 1. -/
def Obligations.LineCarriesTheTableAfterATick : Prop :=
  ∀ s t : State, s.Ready → Inv s → Framed s → s.dirty = true → s.tBusy = false → exec .serviceTick s = .next t →
    ∀ c < 512,
      lineLevel t (40 + 11 * c) = false ∧
      (∀ j < 8, lineLevel t (40 + 11 * c + 1 + j) = (chanAt s c).getLsbD j) ∧
      lineLevel t (40 + 11 * c + 9) = true ∧ lineLevel t (40 + 11 * c + 10) = true

/-- The level of the line: the stream bit of the frame in flight, bit `n mod 8` of its byte `n div 8`, and the idle
level between transfers, at whatever time it is read. That every idle state after the first transfer is between
transfers is the model's reading (DEDUCED, log entry 17). After the last bit of a frame in flight and before the first
transfer the spec states no level (log entries 16 and 17), and neither does this. -/
def Obligations.LineLevelIsTheStreamBit : Prop :=
  ∀ (s : State) (n : Nat), Inv s →
    (s.tBusy = true → n < 5672 → lineLevel s n = (fbAt s (n / 8)).getLsbD (n % 8)) ∧
    (s.tBusy = false → s.txLog ≠ [] → lineLevel s n = s.cfg.idleLevel)

/-! ### The lifecycle (43_lifecycle.md) -/

/-- `reset` of a ready core only enters the wait, whatever the transport does: flags, table, buffer and transfer are
untouched. -/
def Obligations.ResetStartsTheWait : Prop :=
  ∀ s : State, s.Ready → exec .reset s = .next { s with life := .resetWait }

/-- `initialize` in `UNINIT` configures the transport with 250 000 Hz, LSB first and the framing mode, routes the pin
and enters the wait; it starts no transfer and changes nothing else. -/
def Obligations.InitConfiguresRoutesAndWaits : Prop :=
  ∀ s : State, s.life = .uninit → s.fault = none →
    exec .initializeCore s = .next { s with
      tCfg := some ⟨250000, .lsbFirst, s.cfg.transportMode⟩, tPin := true, life := .resetWait }

/-- R105, R106 and R39: the core's step while it waits holds while the transport is busy, and else leaves every element
at its value of R39 and the transport as it was. -/
def Obligations.ResetFinishLeavesTheResetValues : Prop :=
  ∀ (s : State) (rest : List Turn), s.life = .resetWait → s.fault = none → s.mem.wf → s.turns = .core :: rest →
    (s.tBusy = true → step s = .next { s with turns := rest }) ∧
    (s.tBusy = false → ∃ t, step s = .next t ∧
      (∀ i < 512, chanAt t i = 0#8) ∧
      (∀ o < 5, fbAt t o = romRead s.cfg o) ∧
      (∀ b o, b < 64 → o < 11 → fbAt t (5 + 11 * b + o) = skel.getD o 0#8) ∧
      t = { s with turns := rest, mem := t.mem, life := .ready, hwm := 0#10, dirty := false,
                   pending := false, lastTx := s.cfg.resetLastTx })

/-- R94: after `reset` finishes, the buffer decodes to Break, Mark, Start Code 0 and 512 zero slots, with the run
lengths of the header, which are 24 and 5 for the default header. -/
def Obligations.FrameAfterResetDecodesToZeroSlots : Prop :=
  (∀ s : State, s.mem.wf → headerValid s.cfg.header = true →
    ∃ a breakBits mabBits, headerRuns (headerBits s.cfg.header) = some (a, breakBits, mabBits) ∧
      decodeFrame (fbBytes (resetFinish s)) = .frame breakBits mabBits 0#8 (List.replicate 512 0#8)) ∧
  headerRuns (headerBits [0x00#8, 0x00#8, 0x00#8, 0x1F#8, 0xC0#8]) = some (0, 24, 5)

/-- From power-on, `initialize` and the core's own step reach `READY` with the transport set up and no transfer
started. -/
def Obligations.BootReachesReady : Prop :=
  ∃ t, core.run 2 { State.reset with turns := [.host ⟨0x10000000#32, []⟩, .core] } = .next t ∧
    t.life = .ready ∧ t.fault = none ∧ t.tCfg = some ⟨250000, .lsbFirst, freeTransportMode⟩ ∧ t.tPin = true ∧
    t.tBusy = false ∧ t.txLog = [] ∧ t.hwm = 0#10 ∧ t.dirty = false ∧ t.pending = false ∧ t.lastTx = 0#32 ∧
    (∀ i < 512, chanAt t i = 0#8) ∧ fbBytes t = tableFrame t

/-- `UNINIT` is left only by `initialize`, `READY` only by `reset`, and `RESET_WAIT` only by ResetFinish, from an idle
transport. -/
def Obligations.LifecycleMovesOnlyAsListed : Prop :=
  ∀ s t : State, step s = .next t → t.life ≠ s.life →
    (s.life = .uninit ∧ t.life = .resetWait ∧ ∃ c rest, s.turns = .host c :: rest ∧ decode c = .op .initializeCore) ∨
    (s.life = .ready ∧ t.life = .resetWait ∧ ∃ c rest, s.turns = .host c :: rest ∧ decode c = .op .reset) ∨
    (s.life = .resetWait ∧ t.life = .ready ∧ s.tBusy = false ∧ t = resetFinish { s with turns := s.turns.tail })

/-- R123: busy becomes 1 only through the tick of a ready core; only `initialize` configures the transport or routes
the pin. -/
def Obligations.OnlyTheCoreUsesTheTransport : Prop :=
  ∀ s t : State, step s = .next t →
    (s.tBusy = false → t.tBusy = true →
      s.Ready ∧ ∃ c rest, s.turns = .host c :: rest ∧ decode c = .op .serviceTick) ∧
    (t.tCfg ≠ s.tCfg ∨ t.tPin ≠ s.tPin →
      s.life = .uninit ∧ ∃ c rest, s.turns = .host c :: rest ∧ decode c = .op .initializeCore)

/-! ### Invariants -/

/-- At power-on the core is in `UNINIT` with no fault, the transport idle, unconfigured and unrouted, with nothing
logged, and the invariants hold. -/
def Obligations.PowerOnMeetsTheInvariants : Prop :=
  State.reset.life = .uninit ∧ State.reset.fault = none ∧ State.reset.tBusy = false ∧ State.reset.tFrame = none ∧
    State.reset.tCfg = none ∧ State.reset.tPin = false ∧ State.reset.txLog = [] ∧
    Inv State.reset ∧ FramedWhenReady State.reset ∧ WireValid State.reset

/-- Every step of every agent keeps the invariant: canonical memory, a legal mark, no transfer owed, the frame in
flight equal to the buffer and last in the log, the transport set up as the lifecycle says. -/
def Obligations.EveryStepKeepsTheInvariant : Prop :=
  ∀ s t : State, Inv s → step s = .next t → Inv t

/-- R34, R35 and R36 hold once ResetFinish has run, and every later step of every agent keeps them (with the first
sentence of R37). -/
def Obligations.EveryStepKeepsTheFrameComplete : Prop :=
  (∀ s : State, s.mem.wf → Framed (resetFinish s)) ∧
  (∀ s t : State, Inv s → Framed s → step s = .next t → Framed t)

/-- No malformed frame is ever handed to the transport: under a header R73 allows, every logged transfer decodes to a
Break of at least 92 µs, a Mark of at least 12 µs, Start Code 0 and 512 slots. -/
def Obligations.NoMalformedFrameIsEverSent : Prop :=
  ∀ s t : State, headerValid s.cfg.header = true → Inv s → FramedWhenReady s → WireValid s → step s = .next t →
    FramedWhenReady t ∧ WireValid t

/-- No step changes a parameter, so no step writes the header in ROM. -/
def Obligations.ParametersNeverChange : Prop :=
  ∀ s t : State, step s = .next t → t.cfg = s.cfg ∧ ∀ a, romRead t.cfg a = romRead s.cfg a

/-- Two framed states that differ only in the High-Water Mark answer every operation alike: same responses, same
transfers, same buffer and table, same flags and faults. -/
def Obligations.HighWaterMarkIsNeverObserved : Prop :=
  ∀ (s : State) (h : BitVec 10) (i : Instr) (t u : State), Inv s → Framed s →
    Inv { s with hwm := h } → Framed { s with hwm := h } →
    exec i s = .next t → exec i { s with hwm := h } = .next u →
    fbBytes u = fbBytes t ∧ (∀ c < 512, chanAt u c = chanAt t c) ∧
      u = { t with mem := u.mem, hwm := u.hwm }
end

