-- ==== Sys2Proof/Laws/Memory.lean ====
section
/-! SUPPORT. The laws of memory: a read after a write, the canonical form kept by every operation, and what a run of writes leaves at each address. -/

namespace Sys2Proof.Machine

@[simp] theorem Memory.read_ch (m : Memory) (a : Nat) : m.read .ch a = cellsRead .ch m.ch a := rfl
@[simp] theorem Memory.read_fb (m : Memory) (a : Nat) : m.read .fb a = cellsRead .fb m.fb a := rfl

/-- An address below every cell reads as unlisted. -/
theorem cellsRead_of_lt (sp : Space) (l : List Host.Cell) (a : Nat) (h : ∀ c ∈ l, a < c.1) :
    cellsRead sp l a = unlisted sp a := by
  induction l with
  | nil => rfl
  | cons c l ih =>
    have hc := h c (by simp)
    have : a ≠ c.1 := by omega
    simp [cellsRead, this, ih fun d hd => h d (by simp [hd])]

/-- The byte written is read back, and every other address reads as before. -/
theorem cellsRead_cellsWrite (sp : Space) (l : List Host.Cell) (a b : Nat) (v : Byte)
    (h : l.Pairwise fun c d => c.1 < d.1) :
    cellsRead sp (cellsWrite sp l a v) b = if b = a then v else cellsRead sp l b := by
  induction l with
  | nil => by_cases hv : v = unlisted sp a <;> by_cases hb : b = a <;> simp [cellsWrite, cellsRead, hv, hb]
  | cons c l ih =>
    obtain ⟨x, w⟩ := c
    have hx : ∀ d ∈ l, x < d.1 := fun d hd => (List.pairwise_cons.mp h).1 d hd
    have ih := ih (List.pairwise_cons.mp h).2
    rcases Nat.lt_trichotomy a x with hax | rfl | hax
    · by_cases hb : b = a
      · subst hb
        by_cases hv : v = unlisted sp b
        · have : b ≠ x := by omega
          simp [cellsWrite, hax, hv, cellsRead, this, cellsRead_of_lt sp l b fun d hd => by have := hx d hd; omega]
        · simp [cellsWrite, hax, hv, cellsRead]
      · by_cases hv : v = unlisted sp a <;> simp [cellsWrite, hax, hv, cellsRead, hb]
    · by_cases hb : b = a
      · subst hb
        by_cases hv : v = unlisted sp b
        · simp [cellsWrite, hv, cellsRead_of_lt sp l b hx]
        · simp [cellsWrite, hv, cellsRead]
      · by_cases hv : v = unlisted sp a <;> simp [cellsWrite, hv, cellsRead, hb]
    · have h1 : ¬ a < x := by omega
      have h2 : a ≠ x := by omega
      by_cases hb : b = x
      · subst hb; simp [cellsWrite, h1, h2, cellsRead]; omega
      · simp [cellsWrite, h1, h2, cellsRead, hb, ih]

/-- Every cell after a write is an old one or the byte written. -/
theorem mem_cellsWrite (sp : Space) (l : List Host.Cell) (a : Nat) (v : Byte) (d : Host.Cell)
    (hd : d ∈ cellsWrite sp l a v) : d ∈ l ∨ d = (a, v) ∧ v ≠ unlisted sp a := by
  induction l with
  | nil => by_cases hv : v = unlisted sp a <;> simp_all [cellsWrite]
  | cons c l ih =>
    obtain ⟨x, w⟩ := c
    unfold cellsWrite at hd
    split at hd
    · split at hd <;> simp_all
      tauto
    · split at hd
      · split at hd <;> simp_all
        tauto
      · simp only [List.mem_cons] at hd ⊢
        rcases hd with rfl | hd
        · simp
        · rcases ih hd with h | h <;> simp [h]

/-- A write inside the space keeps the canonical form. -/
theorem cellsWf_cellsWrite (sp : Space) (l : List Host.Cell) (a : Nat) (v : Byte)
    (h : cellsWf sp l) (ha : a < sp.size) : cellsWf sp (cellsWrite sp l a v) := by
  refine ⟨?_, fun d hd => ?_⟩
  · have hp := h.1
    clear h ha
    induction l with
    | nil => unfold cellsWrite; split <;> simp
    | cons c l ih =>
      obtain ⟨x, w⟩ := c
      obtain ⟨hx, hl⟩ := List.pairwise_cons.mp hp
      unfold cellsWrite
      split
      · rename_i hax
        split
        · exact hp
        · refine List.pairwise_cons.mpr ⟨fun d hd => ?_, hp⟩
          rcases List.mem_cons.mp hd with rfl | hd
          · exact hax
          · exact Nat.lt_trans hax (hx d hd)
      · split
        · rename_i hax
          split
          · exact hl
          · exact List.pairwise_cons.mpr ⟨fun d hd => hax ▸ hx d hd, hl⟩
        · refine List.pairwise_cons.mpr ⟨fun d hd => ?_, ih hl⟩
          rcases mem_cellsWrite sp l a v d hd with hd | ⟨rfl, -⟩
          · exact hx d hd
          · show x < a; omega
  · rcases mem_cellsWrite sp l a v d hd with hd | ⟨rfl, hv⟩
    · exact h.2 d hd
    · exact ⟨ha, hv⟩

/-- Every write keeps the canonical form. -/
theorem Memory.wf_write (m : Memory) (sp : Space) (a : Nat) (v : Byte) (h : m.wf) : (m.write sp a v).wf := by
  unfold Memory.write
  split
  · rename_i ha
    cases sp
    · exact ⟨cellsWf_cellsWrite _ _ _ _ h.1 ha, h.2⟩
    · exact ⟨h.1, cellsWf_cellsWrite _ _ _ _ h.2 ha⟩
  · exact h

/-- What a write leaves at each address of each space. -/
theorem Memory.read_write (m : Memory) (sp sp' : Space) (a b : Nat) (v : Byte) (h : m.wf) :
    (m.write sp a v).read sp' b = if sp' = sp ∧ b = a ∧ a < sp.size then v else m.read sp' b := by
  unfold Memory.write
  by_cases ha : a < sp.size
  · cases sp <;> cases sp' <;> simp [ha, cellsRead_cellsWrite _ _ _ _ _ h.1.1, cellsRead_cellsWrite _ _ _ _ _ h.2.1]
  · simp [ha]

/-- A run of writes keeps the canonical form. -/
theorem Memory.wf_writeRun (m : Memory) (sp : Space) (a : Nat) (vs : List Byte) (h : m.wf) :
    (m.writeRun sp a vs).wf := by
  induction vs generalizing m a with
  | nil => exact h
  | cons v vs ih => exact ih _ _ (m.wf_write sp a v h)

/-- What a run of writes leaves at each address: `vs[b - a]` inside the run and the space, the old byte elsewhere. -/
theorem Memory.read_writeRun (m : Memory) (sp sp' : Space) (a b : Nat) (vs : List Byte) (h : m.wf) :
    (m.writeRun sp a vs).read sp' b =
      if sp' = sp ∧ a ≤ b ∧ b < a + vs.length ∧ b < sp.size then vs.getD (b - a) 0#8 else m.read sp' b := by
  induction vs generalizing m a with
  | nil => simp [Memory.writeRun]; omega
  | cons v vs ih =>
    rw [Memory.writeRun, ih _ _ (m.wf_write sp a v h), Memory.read_write m sp sp' a b v h]
    by_cases hsp : sp' = sp
    · subst hsp
      by_cases hb : b < sp'.size
      · rcases Nat.lt_trichotomy b a with hba | rfl | hba
        · have h1 : ¬ a + 1 ≤ b := by omega
          have h2 : ¬ a ≤ b := by omega
          have h3 : b ≠ a := by omega
          simp [h1, h2, h3]
        · simp [hb]
        · have h1 : a + 1 ≤ b := by omega
          have h2 : a ≤ b := by omega
          have h3 : b ≠ a := by omega
          have h4 : b < a + 1 + vs.length ↔ b < a + (v :: vs).length := by simp; omega
          have h5 : b - a = (b - (a + 1)) + 1 := by omega
          simp only [h1, h2, h3, h4, hb, h5, true_and, and_true, false_and, if_false, List.getD_cons_succ]
      · have h1 : ¬ (b = a ∧ a < sp'.size) := by omega
        simp [hb, h1]
    · simp [hsp]

/-- The space a run of writes does not name is untouched, whatever the form of its cells. -/
theorem Memory.cells_writeRun_ne (m : Memory) (sp sp' : Space) (a : Nat) (vs : List Byte) (h : sp' ≠ sp) :
    (m.writeRun sp a vs).cells sp' = m.cells sp' := by
  induction vs generalizing m a with
  | nil => rfl
  | cons v vs ih =>
    rw [Memory.writeRun, ih]
    unfold Memory.write
    split
    · cases sp <;> cases sp' <;> simp_all [Memory.cells]
    · rfl

end Sys2Proof.Machine
end

