-- ==== Sys2Proof/Laws/Encoder.lean ====
section
/-! SUPPORT. The laws of the encoder's operations: lengths, the level of the line case by case, the stream bits after a data bit or a slot is ORed in, and what a re-encode leaves in the Channel Table. -/

namespace Sys2Proof.Machine

@[simp] theorem skel_length : skel.length = 11 := rfl

@[simp] theorem orBit_length (out : List Byte) (q : Nat) (b : Bool) : (orBit out q b).length = out.length := by
  simp [orBit]

@[simp] theorem orSlot_length (out : List Byte) (k : Nat) (c : Byte) : (orSlot out k c).length = out.length := by
  simp [orSlot, List.range, List.range.loop]

@[simp] theorem encodeBlock_length (c : Nat → Byte) : (encodeBlock c).length = 11 := by
  simp [encodeBlock, List.range, List.range.loop]

/-- A bit of a byte ORed with a shifted bit. -/
theorem getLsbD_or_bit (x : Byte) (b : Bool) (q n : Nat) (hn : n < 8) :
    (x ||| ((if b then 1#8 else 0#8) <<< q)).getLsbD n = (x.getLsbD n || (b && decide (n = q))) := by
  cases b
  · simp
  · by_cases h : n = q
    · subst h; simp [hn]
    · simp only [if_true, BitVec.getLsbD_or, BitVec.getLsbD_shiftLeft, Bool.true_and, h, decide_false, Bool.or_false]
      by_cases hq : n < q
      · simp [hq]
      · have : n - q ≠ 0 := by omega
        simp [BitVec.getLsbD_one, this]

theorem lineLevel_of_inFlight {s : State} {f : List Byte} {n : Nat} (h : s.tFrame = some f) (hn : n < frameBits) :
    lineLevel s n = streamBit f n := by
  simp [lineLevel, h, hn]

theorem lineLevel_of_lastBitSent {s : State} {f : List Byte} {n : Nat} (h : s.tFrame = some f) (hn : frameBits ≤ n) :
    lineLevel s n = freeLevelAfterFrame s.txLog.length n := by
  simp [lineLevel, h, Nat.not_lt.mpr hn]

theorem lineLevel_of_idle {s : State} {n : Nat} (h : s.tFrame = none) (hp : s.tPin = true) (hl : s.txLog ≠ []) :
    lineLevel s n = s.cfg.idleLevel := by
  simp [lineLevel, h, hp, hl]

theorem lineLevel_of_noTransferYet {s : State} {n : Nat} (h : s.tFrame = none) (hl : s.txLog = []) :
    lineLevel s n = freeLevelBeforeTransfer s.tPin n := by
  simp [lineLevel, h, hl]

theorem lineLevel_of_unrouted {s : State} {n : Nat} (h : s.tFrame = none) (hp : s.tPin = false) :
    lineLevel s n = freeLevelBeforeTransfer false n := by
  simp [lineLevel, h, hp]

/-- ORing a bit in sets exactly that stream bit. -/
theorem streamBit_orBit (out : List Byte) (q n : Nat) (b : Bool) (hq : q / 8 < out.length) :
    streamBit (orBit out q b) n = (streamBit out n || (b && decide (n = q))) := by
  unfold streamBit orBit
  by_cases hn : n / 8 = q / 8
  · have hlt : n / 8 < out.length := hn ▸ hq
    rw [List.getD_eq_getElem _ _ (by simpa using hlt), List.getD_eq_getElem _ _ hlt, List.getElem_modify]
    simp only [hn.symm, if_true]
    rw [getLsbD_or_bit _ _ _ _ (Nat.mod_lt _ (by omega))]
    have : n % 8 = q % 8 ↔ n = q := by omega
    simp [this]
  · have : n ≠ q := by rintro rfl; exact hn rfl
    by_cases hlt : n / 8 < out.length
    · rw [List.getD_eq_getElem _ _ (by simpa using hlt), List.getD_eq_getElem _ _ hlt, List.getElem_modify]
      simp [Ne.symm hn, this]
    · simp [List.getD_eq_getElem?_getD, hlt, this]

/-- ORing a slot in sets its eight data bits and no other stream bit. -/
theorem streamBit_orSlot (out : List Byte) (k n : Nat) (c : Byte) (h : (11 * k + 8) / 8 < out.length) :
    streamBit (orSlot out k c) n =
      (streamBit out n || (decide (11 * k + 1 ≤ n ∧ n < 11 * k + 9) && c.getLsbD (n - (11 * k + 1)))) := by
  have hq : ∀ j < 8, (11 * k + 1 + j) / 8 < out.length := fun j hj => by omega
  have e : orSlot out k c = orBit (orBit (orBit (orBit (orBit (orBit (orBit (orBit out
      (11 * k + 1 + 0) (c.getLsbD 0)) (11 * k + 1 + 1) (c.getLsbD 1)) (11 * k + 1 + 2) (c.getLsbD 2))
      (11 * k + 1 + 3) (c.getLsbD 3)) (11 * k + 1 + 4) (c.getLsbD 4)) (11 * k + 1 + 5) (c.getLsbD 5))
      (11 * k + 1 + 6) (c.getLsbD 6)) (11 * k + 1 + 7) (c.getLsbD 7) := rfl
  rw [e, streamBit_orBit _ _ _ _ (by simpa using hq 7 (by omega)), streamBit_orBit _ _ _ _ (by simpa using hq 6 (by omega)),
    streamBit_orBit _ _ _ _ (by simpa using hq 5 (by omega)), streamBit_orBit _ _ _ _ (by simpa using hq 4 (by omega)),
    streamBit_orBit _ _ _ _ (by simpa using hq 3 (by omega)), streamBit_orBit _ _ _ _ (by simpa using hq 2 (by omega)),
    streamBit_orBit _ _ _ _ (by simpa using hq 1 (by omega)), streamBit_orBit _ _ _ _ (by simpa using hq 0 (by omega))]
  by_cases hin : 11 * k + 1 ≤ n ∧ n < 11 * k + 9
  · obtain ⟨j, hj, rfl⟩ : ∃ j < 8, n = 11 * k + 1 + j := ⟨n - (11 * k + 1), by omega, by omega⟩
    have hx : ∀ i, (11 * k + 1 + j = 11 * k + 1 + i) ↔ j = i := fun i => by omega
    simp only [hin, hx, Nat.add_sub_cancel_left]
    interval_cases j <;> simp
  · have hx : ∀ i < 8, n ≠ 11 * k + 1 + i := fun i hi => by omega
    rw [decide_eq_false hin]
    simp [hx 1, hx 2, hx 3, hx 4, hx 5, hx 6, hx 7, show n ≠ 11 * k + 1 by omega]

/-- Re-encoding keeps the canonical form. -/
theorem wf_encodeBlocks (n : Nat) (m : Memory) (h : m.wf) : (encodeBlocks n m).wf := by
  induction n with
  | zero => exact h
  | succ n ih => exact Memory.wf_writeRun _ _ _ _ ih

theorem wf_encodeUpTo (h : Nat) (m : Memory) (hm : m.wf) : (encodeUpTo h m).wf := wf_encodeBlocks _ _ hm

/-- Re-encoding leaves the Channel Table's cells. -/
@[simp] theorem encodeBlocks_ch (n : Nat) (m : Memory) : (encodeBlocks n m).ch = m.ch := by
  induction n with
  | zero => rfl
  | succ n ih => exact (Memory.cells_writeRun_ne _ .fb .ch _ _ (by simp)).trans ih

@[simp] theorem encodeUpTo_ch (h : Nat) (m : Memory) : (encodeUpTo h m).ch = m.ch := encodeBlocks_ch _ _

end Sys2Proof.Machine
end

