-- ==== Sys2Proof/Laws/State.lean ====
section
/-! SUPPORT. One lemma per field per state update: what each update writes, and that it leaves every other field. -/

namespace Sys2Proof.Machine

variable (s : State)

@[simp] theorem setDirty_cfg : (setDirty s).cfg = s.cfg := rfl
@[simp] theorem setDirty_life : (setDirty s).life = s.life := rfl
@[simp] theorem setDirty_mem : (setDirty s).mem = s.mem := rfl
@[simp] theorem setDirty_hwm : (setDirty s).hwm = s.hwm := rfl
@[simp] theorem setDirty_dirty : (setDirty s).dirty = true := rfl
@[simp] theorem setDirty_pending : (setDirty s).pending = s.pending := rfl
@[simp] theorem setDirty_lastTx : (setDirty s).lastTx = s.lastTx := rfl
@[simp] theorem setDirty_fault : (setDirty s).fault = s.fault := rfl
@[simp] theorem setDirty_tBusy : (setDirty s).tBusy = s.tBusy := rfl
@[simp] theorem setDirty_tFrame : (setDirty s).tFrame = s.tFrame := rfl
@[simp] theorem setDirty_tCfg : (setDirty s).tCfg = s.tCfg := rfl
@[simp] theorem setDirty_tPin : (setDirty s).tPin = s.tPin := rfl
@[simp] theorem setDirty_txLog : (setDirty s).txLog = s.txLog := rfl
@[simp] theorem setDirty_now : (setDirty s).now = s.now := rfl
@[simp] theorem setDirty_responses : (setDirty s).responses = s.responses := rfl
@[simp] theorem setDirty_turns : (setDirty s).turns = s.turns := rfl

@[simp] theorem clearDirty_cfg : (clearDirty s).cfg = s.cfg := rfl
@[simp] theorem clearDirty_life : (clearDirty s).life = s.life := rfl
@[simp] theorem clearDirty_mem : (clearDirty s).mem = s.mem := rfl
@[simp] theorem clearDirty_hwm : (clearDirty s).hwm = s.hwm := rfl
@[simp] theorem clearDirty_dirty : (clearDirty s).dirty = false := rfl
@[simp] theorem clearDirty_pending : (clearDirty s).pending = s.pending := rfl
@[simp] theorem clearDirty_lastTx : (clearDirty s).lastTx = s.lastTx := rfl
@[simp] theorem clearDirty_fault : (clearDirty s).fault = s.fault := rfl
@[simp] theorem clearDirty_tBusy : (clearDirty s).tBusy = s.tBusy := rfl
@[simp] theorem clearDirty_tFrame : (clearDirty s).tFrame = s.tFrame := rfl
@[simp] theorem clearDirty_tCfg : (clearDirty s).tCfg = s.tCfg := rfl
@[simp] theorem clearDirty_tPin : (clearDirty s).tPin = s.tPin := rfl
@[simp] theorem clearDirty_txLog : (clearDirty s).txLog = s.txLog := rfl
@[simp] theorem clearDirty_now : (clearDirty s).now = s.now := rfl
@[simp] theorem clearDirty_responses : (clearDirty s).responses = s.responses := rfl
@[simp] theorem clearDirty_turns : (clearDirty s).turns = s.turns := rfl

@[simp] theorem setPending_cfg : (setPending s).cfg = s.cfg := rfl
@[simp] theorem setPending_life : (setPending s).life = s.life := rfl
@[simp] theorem setPending_mem : (setPending s).mem = s.mem := rfl
@[simp] theorem setPending_hwm : (setPending s).hwm = s.hwm := rfl
@[simp] theorem setPending_dirty : (setPending s).dirty = s.dirty := rfl
@[simp] theorem setPending_pending : (setPending s).pending = true := rfl
@[simp] theorem setPending_lastTx : (setPending s).lastTx = s.lastTx := rfl
@[simp] theorem setPending_fault : (setPending s).fault = s.fault := rfl
@[simp] theorem setPending_tBusy : (setPending s).tBusy = s.tBusy := rfl
@[simp] theorem setPending_tFrame : (setPending s).tFrame = s.tFrame := rfl
@[simp] theorem setPending_tCfg : (setPending s).tCfg = s.tCfg := rfl
@[simp] theorem setPending_tPin : (setPending s).tPin = s.tPin := rfl
@[simp] theorem setPending_txLog : (setPending s).txLog = s.txLog := rfl
@[simp] theorem setPending_now : (setPending s).now = s.now := rfl
@[simp] theorem setPending_responses : (setPending s).responses = s.responses := rfl
@[simp] theorem setPending_turns : (setPending s).turns = s.turns := rfl

@[simp] theorem clearPending_cfg : (clearPending s).cfg = s.cfg := rfl
@[simp] theorem clearPending_life : (clearPending s).life = s.life := rfl
@[simp] theorem clearPending_mem : (clearPending s).mem = s.mem := rfl
@[simp] theorem clearPending_hwm : (clearPending s).hwm = s.hwm := rfl
@[simp] theorem clearPending_dirty : (clearPending s).dirty = s.dirty := rfl
@[simp] theorem clearPending_pending : (clearPending s).pending = false := rfl
@[simp] theorem clearPending_lastTx : (clearPending s).lastTx = s.lastTx := rfl
@[simp] theorem clearPending_fault : (clearPending s).fault = s.fault := rfl
@[simp] theorem clearPending_tBusy : (clearPending s).tBusy = s.tBusy := rfl
@[simp] theorem clearPending_tFrame : (clearPending s).tFrame = s.tFrame := rfl
@[simp] theorem clearPending_tCfg : (clearPending s).tCfg = s.tCfg := rfl
@[simp] theorem clearPending_tPin : (clearPending s).tPin = s.tPin := rfl
@[simp] theorem clearPending_txLog : (clearPending s).txLog = s.txLog := rfl
@[simp] theorem clearPending_now : (clearPending s).now = s.now := rfl
@[simp] theorem clearPending_responses : (clearPending s).responses = s.responses := rfl
@[simp] theorem clearPending_turns : (clearPending s).turns = s.turns := rfl

@[simp] theorem reencode_cfg : (reencode s).cfg = s.cfg := rfl
@[simp] theorem reencode_life : (reencode s).life = s.life := rfl
@[simp] theorem reencode_mem : (reencode s).mem = encodeUpTo s.hwm.toNat s.mem := rfl
@[simp] theorem reencode_hwm : (reencode s).hwm = s.hwm := rfl
@[simp] theorem reencode_dirty : (reencode s).dirty = s.dirty := rfl
@[simp] theorem reencode_pending : (reencode s).pending = s.pending := rfl
@[simp] theorem reencode_lastTx : (reencode s).lastTx = s.lastTx := rfl
@[simp] theorem reencode_fault : (reencode s).fault = s.fault := rfl
@[simp] theorem reencode_tBusy : (reencode s).tBusy = s.tBusy := rfl
@[simp] theorem reencode_tFrame : (reencode s).tFrame = s.tFrame := rfl
@[simp] theorem reencode_tCfg : (reencode s).tCfg = s.tCfg := rfl
@[simp] theorem reencode_tPin : (reencode s).tPin = s.tPin := rfl
@[simp] theorem reencode_txLog : (reencode s).txLog = s.txLog := rfl
@[simp] theorem reencode_now : (reencode s).now = s.now := rfl
@[simp] theorem reencode_responses : (reencode s).responses = s.responses := rfl
@[simp] theorem reencode_turns : (reencode s).turns = s.turns := rfl

@[simp] theorem emitRead_cfg (v : Byte) : (emitRead v s).cfg = s.cfg := rfl
@[simp] theorem emitRead_life (v : Byte) : (emitRead v s).life = s.life := rfl
@[simp] theorem emitRead_mem (v : Byte) : (emitRead v s).mem = s.mem := rfl
@[simp] theorem emitRead_hwm (v : Byte) : (emitRead v s).hwm = s.hwm := rfl
@[simp] theorem emitRead_dirty (v : Byte) : (emitRead v s).dirty = s.dirty := rfl
@[simp] theorem emitRead_pending (v : Byte) : (emitRead v s).pending = s.pending := rfl
@[simp] theorem emitRead_lastTx (v : Byte) : (emitRead v s).lastTx = s.lastTx := rfl
@[simp] theorem emitRead_fault (v : Byte) : (emitRead v s).fault = s.fault := rfl
@[simp] theorem emitRead_tBusy (v : Byte) : (emitRead v s).tBusy = s.tBusy := rfl
@[simp] theorem emitRead_tFrame (v : Byte) : (emitRead v s).tFrame = s.tFrame := rfl
@[simp] theorem emitRead_tCfg (v : Byte) : (emitRead v s).tCfg = s.tCfg := rfl
@[simp] theorem emitRead_tPin (v : Byte) : (emitRead v s).tPin = s.tPin := rfl
@[simp] theorem emitRead_txLog (v : Byte) : (emitRead v s).txLog = s.txLog := rfl
@[simp] theorem emitRead_now (v : Byte) : (emitRead v s).now = s.now := rfl
@[simp] theorem emitRead_responses (v : Byte) : (emitRead v s).responses = s.responses ++ [v] := rfl
@[simp] theorem emitRead_turns (v : Byte) : (emitRead v s).turns = s.turns := rfl

@[simp] theorem enterResetWait_cfg : (enterResetWait s).cfg = s.cfg := rfl
@[simp] theorem enterResetWait_life : (enterResetWait s).life = .resetWait := rfl
@[simp] theorem enterResetWait_mem : (enterResetWait s).mem = s.mem := rfl
@[simp] theorem enterResetWait_hwm : (enterResetWait s).hwm = s.hwm := rfl
@[simp] theorem enterResetWait_dirty : (enterResetWait s).dirty = s.dirty := rfl
@[simp] theorem enterResetWait_pending : (enterResetWait s).pending = s.pending := rfl
@[simp] theorem enterResetWait_lastTx : (enterResetWait s).lastTx = s.lastTx := rfl
@[simp] theorem enterResetWait_fault : (enterResetWait s).fault = s.fault := rfl
@[simp] theorem enterResetWait_tBusy : (enterResetWait s).tBusy = s.tBusy := rfl
@[simp] theorem enterResetWait_tFrame : (enterResetWait s).tFrame = s.tFrame := rfl
@[simp] theorem enterResetWait_tCfg : (enterResetWait s).tCfg = s.tCfg := rfl
@[simp] theorem enterResetWait_tPin : (enterResetWait s).tPin = s.tPin := rfl
@[simp] theorem enterResetWait_txLog : (enterResetWait s).txLog = s.txLog := rfl
@[simp] theorem enterResetWait_now : (enterResetWait s).now = s.now := rfl
@[simp] theorem enterResetWait_responses : (enterResetWait s).responses = s.responses := rfl
@[simp] theorem enterResetWait_turns : (enterResetWait s).turns = s.turns := rfl

@[simp] theorem configure_cfg (hz : Nat) (o : BitOrder) (m : Nat) : (configure hz o m s).cfg = s.cfg := rfl
@[simp] theorem configure_life (hz : Nat) (o : BitOrder) (m : Nat) : (configure hz o m s).life = s.life := rfl
@[simp] theorem configure_mem (hz : Nat) (o : BitOrder) (m : Nat) : (configure hz o m s).mem = s.mem := rfl
@[simp] theorem configure_hwm (hz : Nat) (o : BitOrder) (m : Nat) : (configure hz o m s).hwm = s.hwm := rfl
@[simp] theorem configure_dirty (hz : Nat) (o : BitOrder) (m : Nat) : (configure hz o m s).dirty = s.dirty := rfl
@[simp] theorem configure_pending (hz : Nat) (o : BitOrder) (m : Nat) : (configure hz o m s).pending = s.pending := rfl
@[simp] theorem configure_lastTx (hz : Nat) (o : BitOrder) (m : Nat) : (configure hz o m s).lastTx = s.lastTx := rfl
@[simp] theorem configure_fault (hz : Nat) (o : BitOrder) (m : Nat) : (configure hz o m s).fault = s.fault := rfl
@[simp] theorem configure_tBusy (hz : Nat) (o : BitOrder) (m : Nat) : (configure hz o m s).tBusy = s.tBusy := rfl
@[simp] theorem configure_tFrame (hz : Nat) (o : BitOrder) (m : Nat) : (configure hz o m s).tFrame = s.tFrame := rfl
@[simp] theorem configure_tCfg (hz : Nat) (o : BitOrder) (m : Nat) : (configure hz o m s).tCfg = some ⟨hz, o, m⟩ := rfl
@[simp] theorem configure_tPin (hz : Nat) (o : BitOrder) (m : Nat) : (configure hz o m s).tPin = s.tPin := rfl
@[simp] theorem configure_txLog (hz : Nat) (o : BitOrder) (m : Nat) : (configure hz o m s).txLog = s.txLog := rfl
@[simp] theorem configure_now (hz : Nat) (o : BitOrder) (m : Nat) : (configure hz o m s).now = s.now := rfl
@[simp] theorem configure_responses (hz : Nat) (o : BitOrder) (m : Nat) : (configure hz o m s).responses = s.responses := rfl
@[simp] theorem configure_turns (hz : Nat) (o : BitOrder) (m : Nat) : (configure hz o m s).turns = s.turns := rfl

@[simp] theorem routePhysicalPin_cfg : (routePhysicalPin s).cfg = s.cfg := rfl
@[simp] theorem routePhysicalPin_life : (routePhysicalPin s).life = s.life := rfl
@[simp] theorem routePhysicalPin_mem : (routePhysicalPin s).mem = s.mem := rfl
@[simp] theorem routePhysicalPin_hwm : (routePhysicalPin s).hwm = s.hwm := rfl
@[simp] theorem routePhysicalPin_dirty : (routePhysicalPin s).dirty = s.dirty := rfl
@[simp] theorem routePhysicalPin_pending : (routePhysicalPin s).pending = s.pending := rfl
@[simp] theorem routePhysicalPin_lastTx : (routePhysicalPin s).lastTx = s.lastTx := rfl
@[simp] theorem routePhysicalPin_fault : (routePhysicalPin s).fault = s.fault := rfl
@[simp] theorem routePhysicalPin_tBusy : (routePhysicalPin s).tBusy = s.tBusy := rfl
@[simp] theorem routePhysicalPin_tFrame : (routePhysicalPin s).tFrame = s.tFrame := rfl
@[simp] theorem routePhysicalPin_tCfg : (routePhysicalPin s).tCfg = s.tCfg := rfl
@[simp] theorem routePhysicalPin_tPin : (routePhysicalPin s).tPin = true := rfl
@[simp] theorem routePhysicalPin_txLog : (routePhysicalPin s).txLog = s.txLog := rfl
@[simp] theorem routePhysicalPin_now : (routePhysicalPin s).now = s.now := rfl
@[simp] theorem routePhysicalPin_responses : (routePhysicalPin s).responses = s.responses := rfl
@[simp] theorem routePhysicalPin_turns : (routePhysicalPin s).turns = s.turns := rfl

@[simp] theorem resetFinish_cfg : (resetFinish s).cfg = s.cfg := rfl
@[simp] theorem resetFinish_life : (resetFinish s).life = .ready := rfl
@[simp] theorem resetFinish_mem : (resetFinish s).mem = resetMemory s.cfg s.mem := rfl
@[simp] theorem resetFinish_hwm : (resetFinish s).hwm = 0#10 := rfl
@[simp] theorem resetFinish_dirty : (resetFinish s).dirty = false := rfl
@[simp] theorem resetFinish_pending : (resetFinish s).pending = false := rfl
@[simp] theorem resetFinish_lastTx : (resetFinish s).lastTx = s.cfg.resetLastTx := rfl
@[simp] theorem resetFinish_fault : (resetFinish s).fault = s.fault := rfl
@[simp] theorem resetFinish_tBusy : (resetFinish s).tBusy = s.tBusy := rfl
@[simp] theorem resetFinish_tFrame : (resetFinish s).tFrame = s.tFrame := rfl
@[simp] theorem resetFinish_tCfg : (resetFinish s).tCfg = s.tCfg := rfl
@[simp] theorem resetFinish_tPin : (resetFinish s).tPin = s.tPin := rfl
@[simp] theorem resetFinish_txLog : (resetFinish s).txLog = s.txLog := rfl
@[simp] theorem resetFinish_now : (resetFinish s).now = s.now := rfl
@[simp] theorem resetFinish_responses : (resetFinish s).responses = s.responses := rfl
@[simp] theorem resetFinish_turns : (resetFinish s).turns = s.turns := rfl

/-- The completion step writes `tBusy` and `tFrame` only. -/
theorem transportComplete_eq : transportComplete s = { s with
    tBusy := false, tFrame := if s.tBusy then none else s.tFrame } := by
  unfold transportComplete
  split
  · rfl
  · cases s; simp_all

end Sys2Proof.Machine
end

