-- ==== Sys2Proof/Laws/Buffer.lean ====
section
/-! SUPPORT. What the two whole-buffer operations leave at each address: the re-encode (R88) and the memory part of ResetFinish (R106). -/

namespace Sys2Proof.Machine

/-- Re-encoding the blocks below `n` leaves EncodeBlock of the table there and every other byte as it was. -/
theorem read_encodeBlocks (m : Memory) (hm : m.wf) (n : Nat) (hn : n ≤ 64) (a : Nat) :
    (encodeBlocks n m).read .fb a = if 5 ≤ a ∧ a < 5 + 11 * n then
      (encodeBlock fun k => m.read .ch (8 * ((a - 5) / 11) + k)).getD ((a - 5) % 11) 0#8 else m.read .fb a := by
  induction n with
  | zero => rw [if_neg (by omega)]; rfl
  | succ n ih =>
    have ih := ih (by omega)
    have hch : ∀ k, (encodeBlocks n m).read .ch (8 * n + k) = m.read .ch (8 * n + k) := fun k => by simp
    have hs : Space.size .fb = 709 := rfl
    rw [encodeBlocks, Memory.read_writeRun _ _ _ _ _ _ (wf_encodeBlocks n m hm)]
    simp only [encodeBlock_length, true_and, hch]
    by_cases h1 : 5 + 11 * n ≤ a ∧ a < 5 + 11 * n + 11
    · have e1 : (a - 5) / 11 = n := by omega
      have e2 : (a - 5) % 11 = a - (5 + 11 * n) := by omega
      rw [if_pos ⟨h1.1, h1.2, by omega⟩, if_pos (by omega), e1, e2]
    · rw [if_neg (by omega), ih]
      by_cases h2 : 5 ≤ a ∧ a < 5 + 11 * n
      · rw [if_pos h2, if_pos (by omega)]
      · rw [if_neg h2, if_neg (by omega)]

@[simp] theorem romHeader_length (cfg : Config) : (romHeader cfg).length = 5 := by simp [romHeader]
@[simp] theorem romSkel_length (cfg : Config) : (romSkel cfg).length = 11 := by simp [romSkel]

theorem romHeader_getD (cfg : Config) (o : Nat) (h : o < 5) : (romHeader cfg).getD o 0#8 = romRead cfg o := by
  simp [romHeader, List.getD_eq_getElem?_getD, h]

theorem romSkel_getD (cfg : Config) (o : Nat) (h : o < 11) : (romSkel cfg).getD o 0#8 = skel.getD o 0#8 := by
  simp [romSkel, List.getD_eq_getElem?_getD, h, romRead]

/-- The skeleton is the block of eight zero channels (R76). -/
theorem encodeBlock_zero : encodeBlock (fun _ => 0#8) = skel := by decide

/-- A block of channels that are all 0 is the skeleton. -/
theorem encodeBlock_of_zero (c : Nat → Byte) (h : ∀ k < 8, c k = 0#8) : encodeBlock c = skel := by
  rw [← encodeBlock_zero]
  have e : ∀ d : Nat → Byte, encodeBlock d = orSlot (orSlot (orSlot (orSlot (orSlot (orSlot (orSlot (orSlot skel
    0 (d 0)) 1 (d 1)) 2 (d 2)) 3 (d 3)) 4 (d 4)) 5 (d 5)) 6 (d 6)) 7 (d 7) := fun d => rfl
  rw [e, e, h 0 (by omega), h 1 (by omega), h 2 (by omega), h 3 (by omega), h 4 (by omega), h 5 (by omega),
    h 6 (by omega), h 7 (by omega)]

/-- Skeletons written into the blocks below `n`. -/
theorem read_skeletonBlocks (cfg : Config) (m : Memory) (hm : m.wf) (n : Nat) (hn : n ≤ 64) :
    (skeletonBlocks cfg n m).wf ∧ ∀ a, (skeletonBlocks cfg n m).read .fb a =
      if 5 ≤ a ∧ a < 5 + 11 * n then skel.getD ((a - 5) % 11) 0#8 else m.read .fb a := by
  induction n with
  | zero => exact ⟨hm, fun a => by rw [if_neg (by omega)]; rfl⟩
  | succ n ih =>
    obtain ⟨iw, ih⟩ := ih (by omega)
    have hs : Space.size .fb = 709 := rfl
    refine ⟨Memory.wf_writeRun _ _ _ _ iw, fun a => ?_⟩
    rw [skeletonBlocks, Memory.read_writeRun _ _ _ _ _ _ iw, ih]
    simp only [romSkel_length, true_and]
    by_cases h1 : 5 + 11 * n ≤ a ∧ a < 5 + 11 * n + 11
    · rw [if_pos ⟨h1.1, h1.2, by omega⟩, if_pos (by omega), show (a - 5) % 11 = a - (5 + 11 * n) by omega,
        romSkel_getD _ _ (by omega)]
    · rw [if_neg (by omega)]
      by_cases h2 : 5 ≤ a ∧ a < 5 + 11 * n
      · rw [if_pos h2, if_pos (by omega)]
      · rw [if_neg h2, if_neg (by omega)]

/-- The memory ResetFinish leaves: the header, the skeletons, a table of zeros, in canonical form. -/
theorem read_resetMemory (cfg : Config) (m : Memory) (hm : m.wf) :
    (resetMemory cfg m).wf ∧ (∀ i < 512, (resetMemory cfg m).read .ch i = 0#8) ∧
      ∀ a < 709, (resetMemory cfg m).read .fb a =
        if a < 5 then romRead cfg a else skel.getD ((a - 5) % 11) 0#8 := by
  obtain ⟨w1, r1⟩ := read_skeletonBlocks cfg _ (Memory.wf_writeRun m .fb 0 (romHeader cfg) hm) 64 (le_refl _)
  have hlen : (List.replicate 512 (0#8)).length = 512 := List.length_replicate
  have hget : ∀ i, (List.replicate 512 (0#8)).getD i 0#8 = 0#8 := fun i => by
    rw [List.getD_eq_getElem?_getD, List.getElem?_replicate]; split <;> rfl
  have hc : Space.size .ch = 512 := rfl
  have hs : Space.size .fb = 709 := rfl
  unfold resetMemory
  generalize skeletonBlocks cfg 64 (m.writeRun .fb 0 (romHeader cfg)) = m1 at w1 r1 ⊢
  generalize List.replicate 512 (0#8) = z at hlen hget ⊢
  refine ⟨Memory.wf_writeRun _ _ _ _ w1, fun i hi => ?_, fun a ha => ?_⟩
  · rw [Memory.read_writeRun _ _ _ _ _ _ w1, if_pos ⟨rfl, by omega, by omega, by omega⟩]
    exact hget _
  · rw [Memory.read_writeRun _ _ _ _ _ _ w1, if_neg (by simp), r1]
    by_cases h5 : a < 5
    · rw [if_neg (by omega), if_pos h5, Memory.read_writeRun _ _ _ _ _ _ hm,
        if_pos ⟨rfl, by omega, by simpa using h5, by omega⟩]
      exact romHeader_getD _ _ h5
    · rw [if_pos (by omega), if_neg h5]

/-- ResetFinish keeps the canonical form. -/
theorem wf_resetFinish (s : State) (h : s.mem.wf) : (resetFinish s).mem.wf := by
  rw [resetFinish_mem]; exact (read_resetMemory s.cfg s.mem h).1

/-- The Channel Table after ResetFinish. -/
theorem chanAt_resetFinish (s : State) (h : s.mem.wf) (i : Nat) (hi : i < 512) : chanAt (resetFinish s) i = 0#8 := by
  rw [chanAt, resetFinish_mem]; exact (read_resetMemory s.cfg s.mem h).2.1 i hi

/-- The frame buffer after ResetFinish. -/
theorem fbAt_resetFinish (s : State) (h : s.mem.wf) (a : Nat) (ha : a < 709) :
    fbAt (resetFinish s) a = if a < 5 then romRead s.cfg a else skel.getD ((a - 5) % 11) 0#8 := by
  rw [fbAt, resetFinish_mem]; exact (read_resetMemory s.cfg s.mem h).2.2 a ha

/-- The bytes of the frame buffer are its 709 addresses in order. -/
@[simp] theorem fbBytes_length (s : State) : (fbBytes s).length = 709 := by simp [fbBytes, Memory.bytes, Space.size]

theorem getD_fbBytes (s : State) (o : Nat) (h : o < 709) : (fbBytes s).getD o 0#8 = fbAt s o := by
  simp [fbBytes, Memory.bytes, Space.size, List.getD_eq_getElem?_getD, h, fbAt]

/-- The slot blocks of a frame, as one list. -/
theorem slotBlocks_length (ch : Nat → Byte) (n : Nat) :
    ((List.range n).flatMap fun b => encodeBlock fun k => ch (8 * b + k)).length = 11 * n := by
  induction n with
  | zero => rfl
  | succ n ih =>
    rw [List.range_succ, List.flatMap_append, List.length_append, ih]
    simp
    omega

theorem getD_slotBlocks (ch : Nat → Byte) (n b o : Nat) (hb : b < n) (ho : o < 11) :
    ((List.range n).flatMap fun b => encodeBlock fun k => ch (8 * b + k)).getD (11 * b + o) 0#8 =
      (encodeBlock fun k => ch (8 * b + k)).getD o 0#8 := by
  induction n with
  | zero => omega
  | succ n ih =>
    rw [List.range_succ, List.flatMap_append]
    by_cases hbn : b < n
    · rw [List.getD_append _ _ _ _ (by rw [slotBlocks_length]; omega)]
      exact ih hbn
    · have : b = n := by omega
      subst this
      rw [List.getD_append_right _ _ _ _ (by rw [slotBlocks_length]; omega), slotBlocks_length]
      simp

/-- A frame under a five-byte header has 709 bytes. -/
theorem encodeFrame_length (header : List Byte) (ch : Nat → Byte) (h : header.length = 5) :
    (encodeFrame header ch).length = 709 := by
  unfold encodeFrame
  rw [List.length_append, slotBlocks_length, h]

/-- The header bytes of a frame. -/
theorem encodeFrame_header (header : List Byte) (ch : Nat → Byte) (o : Nat) (h : o < header.length) :
    (encodeFrame header ch).getD o 0#8 = header.getD o 0#8 := by
  unfold encodeFrame
  rw [List.getD_append _ _ _ _ h]

/-- The bytes of block `b` of a frame. -/
theorem encodeFrame_block (header : List Byte) (ch : Nat → Byte) (b o : Nat) (h : header.length = 5) (hb : b < 64)
    (ho : o < 11) :
    (encodeFrame header ch).getD (5 + 11 * b + o) 0#8 = (encodeBlock fun k => ch (8 * b + k)).getD o 0#8 := by
  unfold encodeFrame
  rw [List.getD_append_right _ _ _ _ (by omega), h, show 5 + 11 * b + o - 5 = 11 * b + o by omega,
    getD_slotBlocks ch 64 b o hb ho]

end Sys2Proof.Machine
end

