-- ==== Sys2Proof/Laws/Decode.lean ====
section
/-! SUPPORT. The laws of the formats: each field of a word of a format is the operand placed there, and its must-be-0 bits are 0. -/

namespace Sys2Proof

/-- A bit of a placed field. -/
theorem getLsbD_place (lo n j : Nat) (f : BitVec n) :
    (place lo f).getLsbD j = (decide (j < 32) && (decide (lo ≤ j) && f.getLsbD (j - lo))) := by
  simp only [place, BitVec.getLsbD_shiftLeft, BitVec.getLsbD_setWidth]
  by_cases h1 : j < 32 <;> by_cases h2 : lo ≤ j <;> simp [h1, h2]
  have : ¬ j < lo := by omega
  have h3 : j - lo < 32 := by omega
  simp [this, h3]

variable (op : BitVec 4) (f g : Field) (v : Byte)

@[simp] theorem opField_formatN : opField (formatN op) = op := by
  refine BitVec.eq_of_getLsbD_eq fun j hj => ?_
  simp only [opField, formatN, BitVec.getLsbD_extractLsb', getLsbD_place]
  simp [hj, show 28 + j < 32 by omega]

@[simp] theorem opField_formatW : opField (formatW op f v) = op := by
  refine BitVec.eq_of_getLsbD_eq fun j hj => ?_
  simp only [opField, formatW, BitVec.getLsbD_extractLsb', BitVec.getLsbD_or, getLsbD_place]
  simp [hj, show 28 + j < 32 by omega, BitVec.getLsbD_of_ge f (28 + j - 16) (by omega), BitVec.getLsbD_of_ge v (28 + j) (by omega), show 16 ≤ 28 + j by omega]

@[simp] theorem opField_formatS : opField (formatS op f g) = op := by
  refine BitVec.eq_of_getLsbD_eq fun j hj => ?_
  simp only [opField, formatS, BitVec.getLsbD_extractLsb', BitVec.getLsbD_or, getLsbD_place]
  simp [hj, show 28 + j < 32 by omega, BitVec.getLsbD_of_ge f (28 + j - 16) (by omega), BitVec.getLsbD_of_ge g (28 + j) (by omega), show 16 ≤ 28 + j by omega]

@[simp] theorem opField_formatR : opField (formatR op f) = op := by
  refine BitVec.eq_of_getLsbD_eq fun j hj => ?_
  simp only [opField, formatR, BitVec.getLsbD_extractLsb', BitVec.getLsbD_or, getLsbD_place]
  simp [hj, show 28 + j < 32 by omega, BitVec.getLsbD_of_ge f (28 + j - 16) (by omega), show 16 ≤ 28 + j by omega]

@[simp] theorem idxField_formatW : idxField (formatW op f v) = f := by
  refine BitVec.eq_of_getLsbD_eq fun j hj => ?_
  simp only [idxField, formatW, BitVec.getLsbD_extractLsb', BitVec.getLsbD_or, getLsbD_place]
  simp [hj, show 16 + j < 32 by omega, show ¬ 28 ≤ 16 + j by omega, BitVec.getLsbD_of_ge v (16 + j) (by omega)]

@[simp] theorem idxField_formatS : idxField (formatS op f g) = f := by
  refine BitVec.eq_of_getLsbD_eq fun j hj => ?_
  simp only [idxField, formatS, BitVec.getLsbD_extractLsb', BitVec.getLsbD_or, getLsbD_place]
  simp [hj, show 16 + j < 32 by omega, show ¬ 28 ≤ 16 + j by omega, BitVec.getLsbD_of_ge g (16 + j) (by omega)]

@[simp] theorem idxField_formatR : idxField (formatR op f) = f := by
  refine BitVec.eq_of_getLsbD_eq fun j hj => ?_
  simp only [idxField, formatR, BitVec.getLsbD_extractLsb', BitVec.getLsbD_or, getLsbD_place]
  simp [hj, show 16 + j < 32 by omega, show ¬ 28 ≤ 16 + j by omega]

@[simp] theorem valField_formatW : valField (formatW op f v) = v := by
  refine BitVec.eq_of_getLsbD_eq fun j hj => ?_
  simp only [valField, formatW, BitVec.getLsbD_extractLsb', BitVec.getLsbD_or, getLsbD_place]
  simp [hj, show j < 32 by omega, show ¬ 28 ≤ j by omega, show ¬ 16 ≤ j by omega]

@[simp] theorem lenField_formatS : lenField (formatS op f g) = g := by
  refine BitVec.eq_of_getLsbD_eq fun j hj => ?_
  simp only [lenField, formatS, BitVec.getLsbD_extractLsb', BitVec.getLsbD_or, getLsbD_place]
  simp [hj, show j < 32 by omega, show ¬ 28 ≤ j by omega, show ¬ 16 ≤ j by omega]

@[simp] theorem reserved_formatN : (formatN op).extractLsb' 0 28 = 0#28 := by
  refine BitVec.eq_of_getLsbD_eq fun j hj => ?_
  simp only [formatN, BitVec.getLsbD_extractLsb', getLsbD_place]
  simp [hj, show j < 32 by omega, show ¬ 28 ≤ j by omega]

@[simp] theorem reserved_formatW : (formatW op f v).extractLsb' 8 8 = 0#8 := by
  refine BitVec.eq_of_getLsbD_eq fun j hj => ?_
  simp only [formatW, BitVec.getLsbD_extractLsb', BitVec.getLsbD_or, getLsbD_place]
  simp [hj, show 8 + j < 32 by omega, show ¬ 28 ≤ 8 + j by omega, show ¬ 16 ≤ 8 + j by omega]

@[simp] theorem reserved_formatS : (formatS op f g).extractLsb' 12 4 = 0#4 := by
  refine BitVec.eq_of_getLsbD_eq fun j hj => ?_
  simp only [formatS, BitVec.getLsbD_extractLsb', BitVec.getLsbD_or, getLsbD_place]
  simp [hj, show 12 + j < 32 by omega, show ¬ 28 ≤ 12 + j by omega, show ¬ 16 ≤ 12 + j by omega]

@[simp] theorem reserved_formatR : (formatR op f).extractLsb' 0 16 = 0#16 := by
  refine BitVec.eq_of_getLsbD_eq fun j hj => ?_
  simp only [formatR, BitVec.getLsbD_extractLsb', BitVec.getLsbD_or, getLsbD_place]
  simp [hj, show j < 32 by omega, show ¬ 28 ≤ j by omega, show ¬ 16 ≤ j by omega]

/-- The verdict is the operation exactly when the reserved bits are clear and the byte list fits. -/
theorem verdictOf_eq_op (a b : Bool) (i j : Instr) : verdictOf a b i = .op j ↔ a = true ∧ b = true ∧ i = j := by
  cases a <;> cases b <;> simp [verdictOf]

end Sys2Proof
end

