-- ==== Sys2Proof/Laws/PerInstr.lean ====
section
/-! SUPPORT. A statement made per instruction: the word of every operation matches its row of spec/opcode_table.json under the row's mask (R66). -/

namespace Sys2Proof.Laws.RowMatch

/-- The mask of the operation's row. -/
def mask : Instr → Word
  | .initializeCore => 0xFFFFFFFF#32
  | .reset => 0xFFFFFFFF#32
  | .serviceTick => 0xFFFFFFFF#32
  | .setChannel _ _ => 0xF000FF00#32
  | .setChannels _ _ _ => 0xF000F000#32
  | .getChannel _ => 0xF000FFFF#32

/-- The match value of the operation's row. -/
def pattern : Instr → Word
  | .initializeCore => 0x10000000#32
  | .reset => 0x20000000#32
  | .serviceTick => 0x30000000#32
  | .setChannel _ _ => 0x40000000#32
  | .setChannels _ _ _ => 0x50000000#32
  | .getChannel _ => 0x60000000#32

/-- The operation's word is its row's pattern under its row's mask, whatever its operands. -/
def Statement (i : Instr) : Prop := i.word &&& mask i = pattern i

theorem initializeCore : Statement .initializeCore := by unfold Statement; decide

theorem reset : Statement .reset := by unfold Statement; decide

theorem serviceTick : Statement .serviceTick := by unfold Statement; decide

theorem setChannel (index : Field) (value : Byte) : Statement (.setChannel index value) := by
  refine BitVec.eq_of_getLsbD_eq fun j hj => ?_
  simp only [Instr.word, encode, formatW, mask, pattern, BitVec.getLsbD_and, BitVec.getLsbD_or, getLsbD_place]
  interval_cases j <;> simp

theorem setChannels (start length : Field) (data : List Byte) : Statement (.setChannels start length data) := by
  refine BitVec.eq_of_getLsbD_eq fun j hj => ?_
  simp only [Instr.word, encode, formatS, mask, pattern, BitVec.getLsbD_and, BitVec.getLsbD_or, getLsbD_place]
  interval_cases j <;> simp

theorem getChannel (index : Field) : Statement (.getChannel index) := by
  refine BitVec.eq_of_getLsbD_eq fun j hj => ?_
  simp only [Instr.word, encode, formatR, mask, pattern, BitVec.getLsbD_and, BitVec.getLsbD_or, getLsbD_place]
  interval_cases j <;> simp

end Sys2Proof.Laws.RowMatch
end

