-- ==== Sys2Proof/Laws/Step.lean ====
section
/-! SUPPORT. What each shared operation, each meaning and each step can do, said once: the inversion lemmas that later proofs cite instead of unfolding exec and step. -/

namespace Sys2Proof.Machine

/-- A core step answers a next state only while no fault is recorded. -/
theorem whileRunning_next (s t : State) (k : Result) (h : whileRunning s k = .next t) :
    s.fault = none ∧ k = .next t := by
  unfold whileRunning at h
  split at h
  · cases h
  · exact ⟨‹_›, h⟩

/-- An operation with the precondition of R80 either records a lifecycle fault or runs in a ready core. -/
theorem whenReady_next (i : Instr) (s t : State) (k : Result) (h : whenReady i s k = .next t) :
    s.fault = none ∧
      ((s.life = .ready ∧ k = .next t) ∨
        (s.life ≠ .ready ∧ ∃ code, t = { s with fault := some ⟨code, i.word⟩ })) := by
  obtain ⟨hf, h⟩ := whileRunning_next _ _ _ h
  refine ⟨hf, ?_⟩
  split at h
  · rename_i hl
    cases h
    exact .inr ⟨by simp [hl], _, rfl⟩
  · rename_i hl
    cases h
    exact .inr ⟨by simp [hl], _, rfl⟩
  · exact .inl ⟨‹_›, h⟩

/-- In a ready core the precondition of R80 lets the operation run. -/
theorem whenReady_of_ready (i : Instr) (s : State) (k : Result) (h : s.Ready) : whenReady i s k = k := by
  simp [whenReady, whileRunning, h.1, h.2]

/-- An idle transport accepts a transfer. -/
theorem transferAsync_of_idle (now : Time) (s : State) (h : s.tBusy = false) :
    transferAsync now s =
      .next { s with tBusy := true, tFrame := some (fbBytes s), txLog := s.txLog ++ [(now, fbBytes s)] } := by
  simp [transferAsync, h]

/-- The state an idle tick leaves when it starts a transfer of the buffer of `s`. -/
def sent (s : State) : State :=
  { s with pending := false, lastTx := s.now, tBusy := true, tFrame := some (fbBytes s),
           txLog := s.txLog ++ [(s.now, fbBytes s)] }

/-- The two outcomes of step 3 of a tick that found the transport idle. -/
theorem transmitIfOwed_of_idle (s : State) (h : s.tBusy = false) :
    transmitIfOwed s.now s =
      .next (if s.pending || refreshDue s.cfg s.now s.lastTx then sent s else s) := by
  unfold transmitIfOwed
  split
  · simp [startTransfer, transferAsync_of_idle _ _ h, clearPending, sent]
  · rfl

/-- Everything an operation that answers a next state can have done. -/
inductive Effect (s : State) : Instr → State → Prop where
  /-- A precondition was broken, and the record is the only change. -/
  | raised (i : Instr) (code : FaultCode) (info : Word) : Effect s i { s with fault := some ⟨code, info⟩ }
  /-- A dropped write, a gated tick, or a tick with nothing to send. -/
  | nothing (i : Instr) : s.Ready → Effect s i s
  /-- An accepted write of `data` from channel `start` on. -/
  | wrote (i : Instr) (start : Nat) (data : List Byte) : s.Ready → start + data.length ≤ 512 →
      (i = .setChannels (BitVec.ofNat 12 start) (BitVec.ofNat 12 data.length) data ∨
        ∃ v, data = [v] ∧ i = .setChannel (BitVec.ofNat 12 start) v) →
      Effect s i { s with mem := s.mem.writeRun .ch start data,
                          hwm := raiseHwm s.hwm (start + data.length), dirty := true }
  | answered (index : Field) : s.Ready → index.toNat ≤ 511 →
      Effect s (.getChannel index) { s with responses := s.responses ++ [chanAt s index.toNat] }
  /-- A tick that re-encoded and sent. -/
  | sentNew : s.Ready → s.tBusy = false → s.dirty = true →
      Effect s .serviceTick (sent { s with mem := encodeUpTo s.hwm.toNat s.mem, dirty := false })
  /-- A tick that sent the buffer as it was. -/
  | sentOld : s.Ready → s.tBusy = false → s.dirty = false → Effect s .serviceTick (sent s)
  | waits : s.Ready → Effect s .reset { s with life := .resetWait }
  | broughtUp : s.life = .uninit → s.fault = none →
      Effect s .initializeCore { s with
        tCfg := some ⟨transportBitClock, .lsbFirst, s.cfg.transportMode⟩, tPin := true, life := .resetWait }

/-- The body of a write: dropped, or written. -/
theorem writeChannels_effect (s : State) (i : Instr) (start : Nat) (data : List Byte) (h : s.Ready)
    (hi : start + data.length ≤ 512 →
      i = .setChannels (BitVec.ofNat 12 start) (BitVec.ofNat 12 data.length) data ∨
        ∃ v, data = [v] ∧ i = .setChannel (BitVec.ofNat 12 start) v) :
    Effect s i (writeChannels start data.length data s) := by
  unfold writeChannels
  split
  · rename_i ha
    have ha : start + data.length ≤ 512 := by simpa [writeAccepted] using ha
    exact .wrote i start data h ha (hi ha)
  · exact .nothing i h

/-- Inversion of exec: what an operation that answers a next state did. -/
theorem exec_effect (i : Instr) (s t : State) (h : exec i s = .next t) : Effect s i t := by
  cases i with
  | initializeCore =>
    obtain ⟨hf, h⟩ := whileRunning_next _ _ _ h
    split at h
    · cases h; exact .raised _ _ _
    · cases h; exact .raised _ _ _
    · rename_i hl; cases h; exact .broughtUp hl hf
  | reset =>
    obtain ⟨hf, ⟨hl, h⟩ | ⟨-, c, rfl⟩⟩ := whenReady_next _ _ _ _ h
    · cases h; exact .waits ⟨hl, hf⟩
    · exact .raised _ _ _
  | serviceTick =>
    obtain ⟨hf, ⟨hl, h⟩ | ⟨-, c, rfl⟩⟩ := whenReady_next _ _ _ _ h
    · split at h
      · cases h; exact .nothing _ ⟨hl, hf⟩
      · rename_i hb
        have hb : s.tBusy = false := by simpa [isBusy] using hb
        by_cases hd : s.dirty = true
        · have e := transmitIfOwed_of_idle (setPending (clearDirty (reencode s))) hb
          simp only [encodeIfDirty, hd, if_true] at h
          change transmitIfOwed s.now _ = _ at e
          rw [e] at h
          cases h
          exact .sentNew ⟨hl, hf⟩ hb hd
        · have hd : s.dirty = false := by simpa using hd
          simp only [encodeIfDirty, hd] at h
          rw [if_neg (by simp), transmitIfOwed_of_idle _ hb] at h
          cases h
          split
          · exact .sentOld ⟨hl, hf⟩ hb hd
          · exact .nothing _ ⟨hl, hf⟩
    · exact .raised _ _ _
  | setChannel index value =>
    obtain ⟨hf, ⟨hl, h⟩ | ⟨-, c, rfl⟩⟩ := whenReady_next _ _ _ _ h
    · cases h
      exact writeChannels_effect s _ _ [value] ⟨hl, hf⟩ fun _ => .inr ⟨value, rfl, by simp [operand]⟩
    · exact .raised _ _ _
  | setChannels start length data =>
    change execSetChannels start length data s = _ at h
    unfold execSetChannels at h
    split at h
    · rename_i hd
      have hd : data.length = length.toNat := by simpa [Instr.dataFits] using hd
      obtain ⟨hf, ⟨hl, h⟩ | ⟨-, c, rfl⟩⟩ := whenReady_next _ _ _ _ h
      · cases h
        rw [show operand length = data.length from hd.symm]
        exact writeChannels_effect s _ _ data ⟨hl, hf⟩ fun _ => .inl (by simp [operand, hd])
      · exact .raised _ _ _
    · cases h
  | getChannel index =>
    obtain ⟨hf, ⟨hl, h⟩ | ⟨-, c, rfl⟩⟩ := whenReady_next _ _ _ _ h
    · split at h
      · rename_i hr
        cases h
        have hr : index.toNat < 512 := of_decide_eq_true hr
        exact .answered index ⟨hl, hf⟩ (by omega)
      · cases h; exact .raised _ _ _
    · exact .raised _ _ _

/-- The state a step works on: the turn has left the schedule. -/
def afterTurn (s : State) : State := { s with turns := s.turns.tail }

/-- Everything a step that answers a next state can have done, of whichever agent had the turn. -/
inductive Move (s : State) : State → Prop where
  | clock (now : Time) (rest : List Turn) : s.turns = .clock now :: rest → Move s { afterTurn s with now := now }
  | complete (rest : List Turn) : s.turns = .transport :: rest → Move s (transportComplete (afterTurn s))
  /-- A turn of the core with no step to take, or a wait on a busy transport. -/
  | hold : s.fault = none → Move s (afterTurn s)
  | finish : s.fault = none → s.life = .resetWait → s.tBusy = false → Move s (resetFinish (afterTurn s))
  /-- A word that spells no operation. -/
  | badWord (c : Command) (rest : List Turn) (code : FaultCode) : s.turns = .host c :: rest → s.fault = none →
      Move s { afterTurn s with fault := some ⟨code, c.word⟩ }
  | operation (c : Command) (rest : List Turn) (i : Instr) (t : State) : s.turns = .host c :: rest →
      s.fault = none → decode c = .op i → exec i (afterTurn s) = .next t → Effect (afterTurn s) i t → Move s t

/-- The core's own turn: it holds, or it finishes the reset. -/
theorem coreTurn_move (s t : State) (h : coreTurn (afterTurn s) = .next t) : Move s t := by
  obtain ⟨hf, h⟩ := whileRunning_next _ _ _ h
  have hf : s.fault = none := hf
  split at h
  · rename_i hl
    cases h
    by_cases hb : s.tBusy = true
    · have : resetPoll (afterTurn s) = afterTurn s := by simp [resetPoll, isBusy, afterTurn, hb]
      rw [this]
      exact .hold hf
    · have hb : s.tBusy = false := by simpa using hb
      have : resetPoll (afterTurn s) = resetFinish (afterTurn s) := by simp [resetPoll, isBusy, afterTurn, hb]
      rw [this]
      exact .finish hf hl hb
  · cases h; exact .hold hf
  · cases h; exact .hold hf

/-- Inversion of step. -/
theorem step_move (s t : State) (h : step s = .next t) : Move s t := by
  unfold step takeTurn at h
  split at h
  · rename_i he
    have : afterTurn s = s := by cases s; simp_all [afterTurn]
    exact coreTurn_move s t (this.symm ▸ h)
  · rename_i c rest he
    have e : { s with turns := rest } = afterTurn s := by simp [afterTurn, he]
    rw [e] at h
    obtain ⟨hf, h⟩ := whileRunning_next _ _ _ h
    have hf : s.fault = none := hf
    split at h
    · cases h; exact .badWord c rest _ he hf
    · cases h; exact .badWord c rest _ he hf
    · cases h
    · rename_i i hd
      exact .operation c rest i t he hf hd h (exec_effect i _ t h)
  · rename_i rest he
    have e : { s with turns := rest } = afterTurn s := by simp [afterTurn, he]
    exact coreTurn_move s t (e ▸ h)
  · rename_i rest he
    have e : { s with turns := rest } = afterTurn s := by simp [afterTurn, he]
    rw [e] at h
    cases h
    exact .complete rest he
  · rename_i now rest he
    have e : { s with turns := rest } = afterTurn s := by simp [afterTurn, he]
    rw [e] at h
    cases h
    exact .clock now rest he

end Sys2Proof.Machine
end

