-- ==== Sys2Proof/Tests/Slice0.lean ====
section
/-! SUPPORT. The model's own tests, with expected results from spec/95_test_vectors.md, and for every obligation with hypotheses a state and operands that meet them all. -/

namespace Sys2Proof.Tests

open Sys2Proof Sys2Proof.Machine

/-! ### Small states -/

/-- A core that has just finished a reset: the values of R39, the transport set up (L2.5). -/
def readyState : State :=
  { State.reset with life := .ready, tCfg := some ⟨250000, .lsbFirst, freeTransportMode⟩, tPin := true }

/-- After `setChannel(0, 0xFF)` from reset (L2.2, first row). -/
def dirtyState : State := { readyState with mem := ⟨[(0, 0xFF#8)], []⟩, hwm := 1#10, dirty := true }

/-- With a transfer of the reset buffer in flight, started at time 0. -/
def busyState : State :=
  { readyState with tBusy := true, tFrame := some (fbBytes readyState), txLog := [(0#32, fbBytes readyState)] }

/-- Ready, its first transfer completed. -/
def betweenState : State := transportComplete busyState

/-- Waiting for the transport. -/
def waitState : State := { readyState with life := .resetWait }

/-- Stopped by an illegal word. -/
def faultState : State := { readyState with fault := some ⟨.illegalCommand, 0#32⟩ }

/-- The state with one turn scheduled. -/
def given (s : State) (t : Turn) : State := { s with turns := [t] }

/-- The host issues the word `w` with the bytes `d`. -/
def issue (w : Word) (d : List Byte := []) : Turn := .host ⟨w, d⟩

/-- A fact of the next state, if there is one. -/
def nextIs (r : Result) (p : State → Bool) : Bool :=
  match r with
  | .next t => p t
  | .fault _ => false
  | .refused _ => false

/-! ### Well-formedness and decoding (30_encoding.md; 95_test_vectors.md L2.1) -/

theorem test_illFormed_data_refused : (Instr.setChannels 0#12 2#12 [0x00#8]).wellFormed = false := by decide
theorem test_wellFormed_data : (Instr.setChannels 0#12 1#12 [0x00#8]).wellFormed = true := by decide
theorem test_decode_initialize : decode ⟨0x10000000#32, []⟩ = .op .initializeCore := by decide
theorem test_decode_reset : decode ⟨0x20000000#32, []⟩ = .op .reset := by decide
theorem test_decode_serviceTick : decode ⟨0x30000000#32, []⟩ = .op .serviceTick := by decide
theorem test_decode_setChannel : decode ⟨0x41FF0080#32, []⟩ = .op (.setChannel 511#12 0x80#8) := by decide
theorem test_decode_setChannels :
    decode ⟨0x51FE0002#32, [0xAA#8, 0xBB#8]⟩ = .op (.setChannels 510#12 2#12 [0xAA#8, 0xBB#8]) := by decide
theorem test_decode_getChannel : decode ⟨0x61FF0000#32, []⟩ = .op (.getChannel 511#12) := by decide
theorem test_decode_zero_illegal : decode ⟨0x00000000#32, []⟩ = .illegalCommand := by decide
theorem test_decode_bit27_reserved : decode ⟨0x18000000#32, []⟩ = .reservedBits := by decide
theorem test_decode_short_data_refused : decode ⟨0x50080002#32, [0x11#8]⟩ = .dataLength := by decide
theorem test_encode_setChannels : (encode (.setChannels 500#12 20#12 [])).word = 0x51F40014#32 := by decide
theorem test_tableWord_data_is_zero :
    decodeTableWord 32 0x50080002 = some (.setChannels 8#12 2#12 [0x00#8, 0x00#8]) := by decide
theorem test_fetchWord_runs : nextIs (step (readyState.withFetchWord 32 0x400000FF)) (fun t => t.dirty && t.turns.isEmpty) = true := by
  decide

/-! ### Channel access (L2.2) -/

theorem test_setChannel_511 :
    nextIs (exec (.setChannel 511#12 0x80#8) readyState) (fun t => chanAt t 511 == 0x80#8 && t.hwm == 512#10) = true := by
  decide
theorem test_setChannel_512_dropped :
    nextIs (exec (.setChannel 512#12 0x01#8) readyState) (fun t => !t.dirty && t.hwm == 0#10) = true := by decide
theorem test_setChannels_510 :
    nextIs (exec (.setChannels 510#12 2#12 [0xAA#8, 0xBB#8]) readyState)
      (fun t => chanAt t 510 == 0xAA#8 && chanAt t 511 == 0xBB#8 && t.hwm == 512#10) = true := by decide
theorem test_setChannels_zero_length_at_512 :
    nextIs (exec (.setChannels 512#12 0#12 []) readyState) (fun t => t.dirty && t.hwm == 512#10) = true := by decide
theorem test_getChannel_reads :
    nextIs (exec (.getChannel 0#12) dirtyState) (fun t => t.responses == [0xFF#8]) = true := by decide
theorem test_getChannel_512_faults :
    nextIs (exec (.getChannel 512#12) readyState) (fun t => t.fault == some ⟨.readOutOfRange, 512#32⟩) = true := by
  decide

/-! ### The encoder (L2.3) -/

theorem test_encodeBlock_counting :
    encodeBlock (fun k => BitVec.ofNat 8 (k + 1)) =
      [0x02#8, 0x26#8, 0xB0#8, 0x81#8, 0x11#8, 0xAC#8, 0x60#8, 0x06#8, 0x3B#8, 0x18#8, 0xC2#8] := by decide
theorem test_encodeBlock_all_ones :
    encodeBlock (fun _ => 0xFF#8) =
      [0xFE#8, 0xF7#8, 0xBF#8, 0xFF#8, 0xFD#8, 0xEF#8, 0x7F#8, 0xFF#8, 0xFB#8, 0xDF#8, 0xFF#8] := by decide
theorem test_header_default : headerRuns (headerBits [0x00#8, 0x00#8, 0x00#8, 0x1F#8, 0xC0#8]) = some (0, 24, 5) := by
  decide
/-- 250 000 bits of 4 µs in a second, and the 23 and 3 bits of R73 as the 92 µs and 12 µs it gives for them (R10, R73). -/
theorem test_bit_time : dmxBitRate * dmxBitTimeUs = 1000000 ∧ 23 * dmxBitTimeUs = 92 ∧ 3 * dmxBitTimeUs = 12 := by decide
theorem test_header_short_break : headerRuns (headerBits [0x00#8, 0x00#8, 0xC0#8, 0x1F#8, 0xC0#8]) = none := by decide

/-! ### The scheduler (L2.4) -/

theorem test_refresh_strict : refreshDue standardConfig 400#32 0#32 = false := by decide
theorem test_refresh_across_wrap : refreshDue standardConfig 0x91#32 0xFFFFFF00#32 = true := by decide
theorem test_tick_sends_new_data :
    nextIs (exec .serviceTick { dirtyState with now := 5#32 })
      (fun t => fbAt t 5 == 0xFE#8 && fbAt t 6 == 0x07#8 && t.lastTx == 5#32 && t.tBusy && !t.dirty) = true := by
  decide +kernel
theorem test_tick_busy_does_nothing :
    nextIs (exec .serviceTick { busyState with dirty := true, now := 401#32 })
      (fun t => t.dirty && t.lastTx == 0#32) = true := by decide +kernel

/-! ### The lifecycle and the faults (L2.5, L2.1) -/

theorem test_reset_waits : nextIs (exec .reset busyState) (fun t => t.life == .resetWait && t.tBusy) = true := by
  decide +kernel
theorem test_resetFinish_clears :
    nextIs (step { dirtyState with life := .resetWait }) (fun t => t.life == .ready && t.mem == ⟨[], []⟩) = true := by
  decide +kernel
theorem test_initialize_routes :
    nextIs (exec .initializeCore State.reset) (fun t => t.tPin && t.life == .resetWait) = true := by decide
theorem test_initialize_twice :
    nextIs (exec .initializeCore readyState) (fun t => t.fault == some ⟨.doubleInitialize, 0x10000000#32⟩) = true := by
  decide
theorem test_uninit_before_range :
    nextIs (step (given State.reset (issue 0x62000000#32)))
      (fun t => t.fault == some ⟨.uninitializedUse, 0x62000000#32⟩) = true := by decide
theorem test_call_during_reset :
    nextIs (step (given waitState (issue 0x62000000#32)))
      (fun t => t.fault == some ⟨.callDuringReset, 0x62000000#32⟩) = true := by decide

/-! ### Witnesses: states and operands that meet the hypotheses of the obligations -/

theorem ready_ready : readyState.Ready := ⟨rfl, rfl⟩
theorem dirty_ready : dirtyState.Ready := ⟨rfl, rfl⟩
theorem busy_ready : busyState.Ready := ⟨rfl, rfl⟩
theorem ready_wf : readyState.mem.wf := by decide
theorem dirty_wf : dirtyState.mem.wf := by decide

theorem ready_inv : Inv readyState where
  wf := by decide
  hwm_le := fun _ => by decide
  pending_clear := fun _ => rfl
  transfer := rfl
  setUp := ⟨rfl, rfl⟩
  log_length := by intro e he; cases he

theorem dirty_inv : Inv dirtyState where
  wf := by decide
  hwm_le := fun _ => by decide
  pending_clear := fun _ => rfl
  transfer := rfl
  setUp := ⟨rfl, rfl⟩
  log_length := by intro e he; cases he

theorem busy_inv : Inv busyState where
  wf := by decide
  hwm_le := fun _ => by decide
  pending_clear := fun _ => rfl
  transfer := ⟨rfl, rfl, rfl⟩
  setUp := ⟨rfl, rfl⟩
  log_length := by
    intro e he
    obtain rfl : e = _ := List.mem_singleton.mp he
    decide +kernel

/-- The frame buffer of the small states is the reset buffer. -/
theorem resetBuffer_blocks : ∀ b < 64, ∀ o < 11, readyState.mem.read .fb (5 + 11 * b + o) = skel.getD o 0#8 := by
  decide +kernel

theorem resetBuffer_header : ∀ o < 5, readyState.mem.read .fb o = romRead standardConfig o := by decide

theorem ready_framed : Framed readyState where
  past_uninit := by decide
  header := resetBuffer_header
  blocks := fun b hb => ⟨fun _ => 0#8, fun o ho => by
    rw [show encodeBlock (fun _ => 0#8) = skel by decide]; exact resetBuffer_blocks b hb o ho⟩
  zeros := ⟨by intro i _ _; rfl, fun b hb _ o ho => resetBuffer_blocks b hb o ho⟩
  clean := fun _ _ => by decide +kernel

theorem dirty_framed : Framed dirtyState where
  past_uninit := by decide
  header := resetBuffer_header
  blocks := fun b hb => ⟨fun _ => 0#8, fun o ho => by
    rw [show encodeBlock (fun _ => 0#8) = skel by decide]; exact resetBuffer_blocks b hb o ho⟩
  zeros := ⟨by
    intro i _ h
    have h : 1 ≤ i := h
    have hi : i ≠ 0 := by omega
    show cellsRead .ch [(0, 0xFF#8)] i = 0#8
    simp [cellsRead, hi, unlisted], fun b hb _ o ho => resetBuffer_blocks b hb o ho⟩
  clean := fun _ h => absurd h (by decide)

theorem between_inv : Inv betweenState :=
  ⟨busy_inv.wf, busy_inv.hwm_le, busy_inv.pending_clear, rfl, busy_inv.setUp, busy_inv.log_length⟩
theorem busy_framed : Framed busyState :=
  ⟨ready_framed.past_uninit, ready_framed.header, ready_framed.blocks, ready_framed.zeros, ready_framed.clean⟩

/-- Scheduling a turn touches no element the invariants speak of. -/
theorem given_inv (s : State) (t : Turn) (h : Inv s) : Inv (given s t) :=
  ⟨h.wf, h.hwm_le, h.pending_clear, h.transfer, h.setUp, h.log_length⟩

theorem given_framed (s : State) (t : Turn) (h : Framed s) : Framed (given s t) :=
  ⟨h.past_uninit, h.header, h.blocks, h.zeros, h.clean⟩

/-- A dirty core to which the host issues a tick. -/
def tickedState : State := given dirtyState (issue 0x30000000#32)

theorem witness_WordSpellsByMatchAndMask :
    ([] : List Byte) = [] ∧ [0x11#8, 0x22#8].length = (0x50080002#32 : Word).toNat % 2 ^ 12 := by decide
theorem witness_OperandsAreTheFormatsFields :
    decode ⟨0x4FFF00FF#32, []⟩ = .op (.setChannel 4095#12 0xFF#8) ∧
      decode ⟨0x5FFF0001#32, [0x11#8]⟩ = .op (.setChannels 4095#12 1#12 [0x11#8]) ∧
      decode ⟨0x6FFF0000#32, []⟩ = .op (.getChannel 4095#12) := by decide
theorem witness_DecodeOfEncodeIsTheOperation : (Instr.setChannels 8#12 2#12 [0x11#8, 0x22#8]).wellFormed = true := by
  decide
theorem witness_EachOperationHasOneCommand : decode ⟨0x50080001#32, [0x11#8]⟩ = .op (.setChannels 8#12 1#12 [0x11#8]) := by
  decide
theorem witness_WordsOutsideTheMapRaise :
    (given readyState (issue 0x0FFFFFFF#32)).fault = none ∧
      (given readyState (issue 0x0FFFFFFF#32)).turns = .host ⟨0x0FFFFFFF#32, []⟩ :: [] ∧
      (0x0FFFFFFF#32 : Word).toNat / 2 ^ 28 = 0 ∧ 7 ≤ (0x70000000#32 : Word).toNat / 2 ^ 28 ∧
      (0x30000001#32 : Word).toNat % 2 ^ 28 ≠ 0 ∧ (0x40000100#32 : Word).toNat / 2 ^ 8 % 2 ^ 8 ≠ 0 ∧
      (0x50008000#32 : Word).toNat / 2 ^ 12 % 2 ^ 4 ≠ 0 ∧ (0x60000001#32 : Word).toNat % 2 ^ 16 ≠ 0 := by decide
theorem witness_DataOfAnotherLengthIsRefused :
    (given readyState (issue 0x50080001#32)).fault = none ∧
      (given readyState (issue 0x50080001#32)).turns = .host ⟨0x50080001#32, []⟩ :: [] ∧
      0x50080001#32 &&& 0xF000F000#32 = 0x50000000#32 ∧
      ([] : List Byte).length ≠ (0x50080001#32 : Word).toNat % 2 ^ 12 ∧ ([] : List Byte).length ≠ (1#12).toNat := by
  decide
theorem witness_StepRunsTheIssuedOperation :
    (given readyState (issue 0x30000000#32)).fault = none ∧
      (given readyState (issue 0x30000000#32)).turns = .host ⟨0x30000000#32, []⟩ :: [] ∧
      decode ⟨0x30000000#32, []⟩ = .op .serviceTick := by decide
theorem witness_StepTakesTheOtherTurns :
    (given readyState (.clock 7#32)).turns = .clock 7#32 :: [] ∧
      ((given busyState .transport).turns = .transport :: [] ∧ (given busyState .transport).tBusy = true) ∧
      ((given readyState .transport).turns = .transport :: [] ∧ (given readyState .transport).tBusy = false) ∧
      ((given State.reset .core).turns = .core :: [] ∧ State.reset.fault = none ∧ State.reset.life ≠ .resetWait) ∧
      readyState.turns = [] :=
  ⟨rfl, ⟨rfl, rfl⟩, ⟨rfl, rfl⟩, ⟨rfl, rfl, by decide⟩, rfl⟩
theorem witness_FaultStopsTheCoreForGood :
    ((given readyState (issue 0#32)).fault = none ∧ faultState.fault ≠ none ∧
      step (given readyState (issue 0#32)) = .next faultState) ∧
    faultState.fault = some ⟨.illegalCommand, 0#32⟩ ∧
    (given faultState (issue 0x20000000#32)).turns = .host ⟨0x20000000#32, []⟩ :: [] ∧
    (given faultState .core).turns = .core :: [] ∧ Instr.reset.wellFormed = true ∧
    ((given { faultState with tBusy := true } .transport).turns = .transport :: [] ∧
      (given { faultState with tBusy := true } .transport).tBusy = true) ∧
    step (given faultState (.clock 1#32)) = .next { faultState with now := 1#32 } :=
  ⟨⟨rfl, by decide, rfl⟩, rfl, rfl, rfl, rfl, ⟨rfl, rfl⟩, rfl⟩
theorem witness_FirstFaultInOrderIsRecorded :
    (given readyState (issue 0x70000001#32)).turns = .host ⟨0x70000001#32, []⟩ :: [] ∧ readyState.fault = none ∧
      decode ⟨0x70000001#32, []⟩ = .illegalCommand ∧ decode ⟨0x60000001#32, []⟩ = .reservedBits ∧
      (decode ⟨0x10000000#32, []⟩ = .op .initializeCore ∧ waitState.life = .resetWait) ∧
      (decode ⟨0x62000000#32, []⟩ = .op (.getChannel 512#12) ∧ Instr.getChannel 512#12 ≠ .initializeCore ∧
        State.reset.life = .uninit) ∧
      readyState.life = .ready ∧ 512 ≤ (512#12).toNat := by decide
theorem witness_EveryOperationHasANextState : Instr.serviceTick.wellFormed = true ∧ State.reset.fault = none := by decide
theorem witness_AcceptedRunIsWritten :
    dirtyState.Ready ∧ dirtyState.mem.wf ∧ [0x11#8, 0x22#8].length = (2#12).toNat ∧
      (510#12).toNat + (2#12).toNat ≤ 512 := by decide
theorem witness_RunPastTheTableChangesNothing :
    dirtyState.Ready ∧ [0x11#8, 0x22#8].length = (2#12).toNat ∧ 512 < (511#12).toNat + (2#12).toNat := by decide
theorem witness_OneChannelIsARunOfOne : dirtyState.Ready := dirty_ready
theorem witness_OneChannelIsWrittenOrDropped :
    dirtyState.Ready ∧ dirtyState.mem.wf ∧ (511#12).toNat ≤ 511 ∧ 512 ≤ (512#12).toNat := by decide
theorem witness_ReadAnswersTheStoredByte : dirtyState.Ready ∧ (511#12).toNat ≤ 511 := by decide
theorem witness_WrittenByteIsReadBack :
    dirtyState.Ready ∧ dirtyState.mem.wf ∧ (511#12).toNat ≤ 511 ∧ TickRun dirtyState { dirtyState with now := 9#32 } :=
  ⟨dirty_ready, dirty_wf, by decide, .clock _ _ .done⟩
theorem witness_MarkIsMaximumOfAcceptedWrites :
    (readyState.Ready ∧ readyState.hwm = 0#10 ∧
      ChannelRun readyState [(0, 1), (512, 1)] dirtyState) ∧
    step (given readyState (issue 0x400000FF#32)) = .next dirtyState ∧ readyState.hwm.toNat ≤ 512 :=
  ⟨⟨ready_ready, rfl, .writeOne _ dirtyState _ 0#12 0xFF#8 _ rfl
    (.writeOne _ dirtyState _ 512#12 0x01#8 _ rfl (.done _))⟩, rfl, by decide⟩
theorem witness_TableChangesOnlyByWritesAndReset :
    readyState.mem.wf ∧ step (given readyState (issue 0x400000FF#32)) = .next dirtyState ∧
      chanAt dirtyState 0 ≠ chanAt (given readyState (issue 0x400000FF#32)) 0 :=
  ⟨ready_wf, rfl, by decide⟩
theorem witness_SlotsLieWhereTheFormatSays : 7 < 8 ∧ defaultHeader.length = 5 ∧ 63 < 64 ∧ 87 < 88 := by decide
theorem witness_ReencodeRewritesTheBlocksBelowTheBound :
    dirtyState.mem.wf ∧ 512 ≤ 512 ∧ 63 < 64 ∧ 10 < 11 ∧ 4 < 5 := by decide
theorem witness_EncodeBoundIsNotObservable :
    dirtyState.mem.wf ∧ HeaderInPlace dirtyState ∧ ZeroAboveMark dirtyState ∧ dirtyState.hwm.toNat ≤ 512 :=
  ⟨dirty_wf, dirty_framed.header, dirty_framed.zeros, by decide⟩
theorem witness_EncodingIgnoresTheOldBuffer :
    dirtyState.mem.wf ∧ Memory.wf ⟨[(0, 0xFF#8)], [(5, 0xFE#8)]⟩ ∧
      (∀ i < 512, dirtyState.mem.read .ch i = Memory.read ⟨[(0, 0xFF#8)], [(5, 0xFE#8)]⟩ .ch i) ∧ 8 * 0 < 1 :=
  ⟨dirty_wf, by decide, fun _ _ => rfl, by decide⟩
theorem witness_WriteReachesOnlyItsSlotsBytes :
    readyState.Ready ∧ Inv readyState ∧ Framed readyState ∧ readyState.dirty = false ∧ readyState.tBusy = false ∧
      exec (.setChannel 0#12 0xFF#8) readyState = .next dirtyState ∧
      ∃ u, exec .serviceTick dirtyState = .next u ∧ 5 < 709 ∧ fbAt u 5 ≠ fbAt readyState 5 :=
  ⟨ready_ready, ready_inv, ready_framed, rfl, rfl, rfl, _, rfl, by decide, by decide +kernel⟩
theorem witness_ReceiverReadsBackEveryTable :
    headerValid defaultHeader = true ∧ headerValid [0x01#8, 0x00#8, 0x00#8, 0x1F#8, 0xC0#8] = true := by decide
theorem witness_TickFollowsTheGatedOrder :
    (busyState.Ready ∧ busyState.tBusy = true) ∧
      (dirtyState.Ready ∧ dirtyState.tBusy = false ∧ dirtyState.dirty = true) ∧
      (readyState.dirty = false ∧ refreshDue readyState.cfg 401#32 readyState.lastTx = true) ∧
      (readyState.pending = false ∧ refreshDue readyState.cfg 400#32 readyState.lastTx = false) :=
  ⟨⟨busy_ready, rfl⟩, ⟨dirty_ready, rfl, rfl⟩, ⟨rfl, by decide⟩, rfl, by decide⟩
theorem witness_RefreshSendsTheUnchangedBuffer :
    readyState.Ready ∧ readyState.dirty = false ∧ readyState.pending = false ∧ readyState.tBusy = false ∧
      ((401#32 : Time).toNat + (2 ^ 32 - readyState.lastTx.toNat)) % 2 ^ 32 > readyState.cfg.refreshMs ∧
      ((400#32 : Time).toNat + (2 ^ 32 - readyState.lastTx.toNat)) % 2 ^ 32 ≤ readyState.cfg.refreshMs := by decide
theorem witness_NoTransferIsOwedBetweenOperations :
    (dirtyState.Ready ∧ dirtyState.tBusy = false ∧ ∃ t, exec .serviceTick dirtyState = .next t) ∧
      readyState.pending = false ∧ step readyState = .next readyState :=
  ⟨⟨dirty_ready, rfl, _, rfl⟩, rfl, rfl⟩
theorem witness_BusyTransportIsLeftAlone :
    (busyState.tBusy = true ∧ step busyState = .next busyState) ∧
      ∃ t, step (given dirtyState (issue 0x30000000#32)) = .next t ∧ t.txLog ≠ dirtyState.txLog :=
  ⟨⟨rfl, rfl⟩, _, rfl, by simp [dirtyState, readyState, State.reset, clearPending]⟩
theorem witness_WritesWhileBusyGoOutInOneFrame :
    busyState.Ready ∧ Inv busyState ∧ Framed busyState ∧ busyState.tBusy = true ∧
      ∃ t, exec (.setChannel 0#12 0xFF#8) busyState = .next t ∧ BusyRun busyState t ∧ t.dirty = true :=
  ⟨busy_ready, busy_inv, busy_framed, rfl, _, rfl, .writeOne _ _ 0#12 0xFF#8 .done rfl, rfl⟩
theorem witness_LineCarriesTheTableAfterATick :
    dirtyState.Ready ∧ Inv dirtyState ∧ Framed dirtyState ∧ dirtyState.dirty = true ∧ dirtyState.tBusy = false ∧
      (∃ t, exec .serviceTick dirtyState = .next t) ∧ 511 < 512 :=
  ⟨dirty_ready, dirty_inv, dirty_framed, rfl, rfl, ⟨_, rfl⟩, by decide⟩
theorem witness_LineLevelIsTheStreamBit :
    (Inv busyState ∧ busyState.tBusy = true ∧ 5671 < 5672) ∧
      (Inv betweenState ∧ betweenState.tBusy = false ∧ betweenState.txLog ≠ []) :=
  ⟨⟨busy_inv, rfl, by decide⟩, between_inv, rfl, List.cons_ne_nil _ _⟩
theorem witness_ResetStartsTheWait : busyState.Ready := busy_ready
theorem witness_InitConfiguresRoutesAndWaits : State.reset.life = .uninit ∧ State.reset.fault = none := by decide
theorem witness_ResetFinishLeavesTheResetValues :
    (given waitState .core).life = .resetWait ∧ (given waitState .core).fault = none ∧
      (given waitState .core).mem.wf ∧ (given waitState .core).turns = .core :: [] ∧
      (given waitState .core).tBusy = false ∧
      (given { waitState with tBusy := true } .core).tBusy = true := by decide
theorem witness_FrameAfterResetDecodesToZeroSlots :
    dirtyState.mem.wf ∧ headerValid dirtyState.cfg.header = true := by decide
theorem witness_LifecycleMovesOnlyAsListed :
    step (given readyState (issue 0x20000000#32)) = .next waitState ∧
      waitState.life ≠ (given readyState (issue 0x20000000#32)).life := ⟨rfl, by decide⟩
theorem witness_OnlyTheCoreUsesTheTransport :
    (∃ t, step (given dirtyState (issue 0x30000000#32)) = .next t ∧ dirtyState.tBusy = false ∧ t.tBusy = true) ∧
      ∃ t, step (given State.reset (issue 0x10000000#32)) = .next t ∧ t.tPin ≠ State.reset.tPin :=
  ⟨⟨_, rfl, rfl, rfl⟩, _, rfl, by decide⟩
theorem witness_EveryStepKeepsTheInvariant : Inv tickedState ∧ ∃ t, step tickedState = .next t :=
  ⟨given_inv _ _ dirty_inv, _, rfl⟩
theorem witness_EveryStepKeepsTheFrameComplete :
    dirtyState.mem.wf ∧ Inv tickedState ∧ Framed tickedState ∧ ∃ t, step tickedState = .next t :=
  ⟨dirty_wf, given_inv _ _ dirty_inv, given_framed _ _ dirty_framed, _, rfl⟩
theorem witness_NoMalformedFrameIsEverSent :
    headerValid tickedState.cfg.header = true ∧ Inv tickedState ∧ FramedWhenReady tickedState ∧
      WireValid tickedState ∧ ∃ t, step tickedState = .next t :=
  ⟨by decide, given_inv _ _ dirty_inv, fun _ => given_framed _ _ dirty_framed, (by intro e he; cases he), _, rfl⟩
theorem witness_ParametersNeverChange : step (given readyState (issue 0x400000FF#32)) = .next dirtyState := rfl
theorem witness_HighWaterMarkIsNeverObserved :
    Inv readyState ∧ Framed readyState ∧ Inv { readyState with hwm := 512#10 } ∧
      Framed { readyState with hwm := 512#10 } ∧ exec (.setChannel 0#12 0xFF#8) readyState = .next dirtyState ∧
      ∃ u, exec (.setChannel 0#12 0xFF#8) { readyState with hwm := 512#10 } = .next u :=
  ⟨ready_inv, ready_framed, ⟨ready_inv.wf, fun _ => by decide, fun _ => rfl, ready_inv.transfer, ready_inv.setUp, ready_inv.log_length⟩,
    ⟨ready_framed.past_uninit, ready_framed.header, ready_framed.blocks,
      ⟨by intro i _ _; rfl, fun b hb _ o ho => resetBuffer_blocks b hb o ho⟩, ready_framed.clean⟩, rfl, _, rfl⟩

end Sys2Proof.Tests
end

section
/-! PROOFS. The complete frame in the buffer (R34 to R37): what ResetFinish leaves (O38), and that every step of every agent keeps it (O45). -/

namespace Sys2Proof.Machine

variable {s t : State}

/-! ### The core's step while it waits (R105, R106) -/

theorem resetPoll_of_busy (h : s.tBusy = true) : resetPoll s = s := if_pos h

theorem resetPoll_of_idle (h : s.tBusy = false) : resetPoll s = resetFinish s := if_neg (by simp [isBusy, h])

/-- A turn of the core in RESET_WAIT is ResetPoll. -/
theorem step_of_core_waiting {rest : List Turn} (hl : s.life = .resetWait) (hf : s.fault = none)
    (ht : s.turns = .core :: rest) : step s = .next (resetPoll { s with turns := rest }) := by
  simp [step, takeTurn, ht, coreTurn, whileRunning, hf, hl]

/-! ### The buffer, block by block -/

theorem headerInPlace_resetFinish (h : s.mem.wf) : HeaderInPlace (resetFinish s) := fun o ho => by
  rw [fbAt_resetFinish s h o (by omega), if_pos ho, resetFinish_cfg]

/-- Every Slot Block is the skeleton after ResetFinish. -/
theorem fbAt_resetFinish_block (h : s.mem.wf) {b o : Nat} (hb : b < 64) (ho : o < 11) :
    fbAt (resetFinish s) (5 + 11 * b + o) = skel.getD o 0#8 := by
  rw [fbAt_resetFinish s h _ (by omega), if_neg (by omega), show (5 + 11 * b + o - 5) % 11 = o by omega]

/-- Block `b` of a buffer whose blocks below `n` were re-encoded. -/
theorem read_encodeBlocks_block {m : Memory} (hm : m.wf) {n b o : Nat} (hn : n ≤ 64) (ho : o < 11) :
    (encodeBlocks n m).read .fb (5 + 11 * b + o) =
      if b < n then (encodeBlock fun k => m.read .ch (8 * b + k)).getD o 0#8 else m.read .fb (5 + 11 * b + o) := by
  rw [read_encodeBlocks m hm n hn, show (5 + 11 * b + o - 5) / 11 = b by omega,
    show (5 + 11 * b + o - 5) % 11 = o by omega]
  exact if_congr (by omega) rfl rfl

/-- Every Slot Block encodes its own eight channels of the table. -/
def TableEncoded (s : State) : Prop :=
  ∀ b < 64, ∀ o < 11, fbAt s (5 + 11 * b + o) = (encodeBlock fun k => chanAt s (8 * b + k)).getD o 0#8

/-- Above the High-Water Mark every channel is 0. -/
def ChannelsZeroAboveMark (s : State) : Prop := ∀ i < 512, s.hwm.toNat ≤ i → chanAt s i = 0#8

/-- A block above the mark encodes eight zero channels, so its encoding is the skeleton. -/
theorem ChannelsZeroAboveMark.encodeBlock_eq_skel (h : ChannelsZeroAboveMark s) {b : Nat} (hb : b < 64)
    (hm : s.hwm.toNat ≤ 8 * b) : (encodeBlock fun k => chanAt s (8 * b + k)) = skel :=
  encodeBlock_of_zero _ fun k hk => h _ (by omega) (by omega)

/-- Header and blocks together are the whole of EncodeFrame (R89). -/
theorem fbBytes_eq_tableFrame (hh : HeaderInPlace s) (he : TableEncoded s) : fbBytes s = tableFrame s := by
  have hlen : (tableFrame s).length = 709 := encodeFrame_length _ _ (romHeader_length _)
  refine List.ext_getElem (by rw [fbBytes_length, hlen]) fun a ha ha' => ?_
  have ha709 : a < 709 := hlen ▸ ha'
  rw [← List.getD_eq_getElem _ 0#8 ha, ← List.getD_eq_getElem _ 0#8 ha', getD_fbBytes s a ha709, tableFrame]
  by_cases h5 : a < 5
  · rw [hh a h5, encodeFrame_header _ _ _ (by simpa using h5), romHeader_getD _ _ h5]
  · obtain ⟨b, o, hb, ho, rfl⟩ : ∃ b o, b < 64 ∧ o < 11 ∧ a = 5 + 11 * b + o :=
      ⟨(a - 5) / 11, (a - 5) % 11, by omega, by omega, by omega⟩
    rw [he b hb o ho, encodeFrame_block _ _ _ _ (romHeader_length _) hb ho]

/-! ### The two ways to be framed: the table was just encoded, or nothing it rests on was touched -/

/-- A buffer that encodes a table with zeros above the mark meets R34 to R37. -/
theorem framed_of_tableEncoded (hl : s.life ≠ .uninit) (hh : HeaderInPlace s) (hz : ChannelsZeroAboveMark s)
    (he : TableEncoded s) : Framed s where
  past_uninit := hl
  header := hh
  blocks := fun b hb => ⟨_, he b hb⟩
  zeros := ⟨hz, fun b hb hm o ho => by rw [he b hb o ho, hz.encodeBlock_eq_skel hb hm]⟩
  clean := fun _ _ => fbBytes_eq_tableFrame hh he

/-- Being framed depends on these five elements only. -/
theorem Framed.of_untouched (h : Framed s) (hcfg : t.cfg = s.cfg) (hlife : t.life = s.life) (hmem : t.mem = s.mem)
    (hhwm : t.hwm = s.hwm) (hdirty : t.dirty = s.dirty) : Framed t := by
  cases s
  cases t
  cases hcfg
  cases hlife
  cases hmem
  cases hhwm
  cases hdirty
  exact ⟨h.past_uninit, h.header, h.blocks, h.zeros, h.clean⟩

/-- ResetFinish establishes R34 to R37, whatever it starts from (R106). -/
theorem framed_resetFinish (h : s.mem.wf) : Framed (resetFinish s) := by
  have hz : ChannelsZeroAboveMark (resetFinish s) := fun i hi _ => chanAt_resetFinish s h i hi
  refine framed_of_tableEncoded (by simp) (headerInPlace_resetFinish h) hz fun b hb o ho => ?_
  rw [fbAt_resetFinish_block h hb ho, hz.encodeBlock_eq_skel hb (by simp)]

/-! ### What each kind of move keeps -/

@[simp] theorem chanAt_reencode (i : Nat) : chanAt (reencode s) i = chanAt s i := by simp [chanAt]

/-- The re-encode of R97 leaves every block the encoding of the table: those below the mark it rewrites, and those
above it are skeletons over zero channels (R36, R90). -/
theorem Framed.tableEncoded_reencode (h : Framed s) (hm : s.mem.wf) (hhwm : s.hwm.toNat ≤ 512) :
    TableEncoded (reencode s) := fun b hb o ho => by
  obtain ⟨hz, hskel⟩ := h.zeros
  have hread : fbAt (reencode s) (5 + 11 * b + o) = _ :=
    read_encodeBlocks_block hm (n := (s.hwm.toNat + 7) / 8) (b := b) (by omega) ho
  simp only [chanAt_reencode]
  by_cases hbn : b < (s.hwm.toNat + 7) / 8
  · rwa [if_pos hbn] at hread
  · have habove : s.hwm.toNat ≤ 8 * b := by omega
    rw [hread, if_neg hbn, ChannelsZeroAboveMark.encodeBlock_eq_skel hz hb habove]
    exact hskel b hb habove o ho

theorem Framed.headerInPlace_reencode (h : Framed s) (hm : s.mem.wf) (hhwm : s.hwm.toNat ≤ 512) :
    HeaderInPlace (reencode s) := fun o ho => by
  have hread : fbAt (reencode s) o = _ := read_encodeBlocks s.mem hm ((s.hwm.toNat + 7) / 8) (by omega) o
  rw [hread, if_neg (by omega)]
  exact h.header o ho

/-- Encoding a dirty table and marking it clean (step 2 of R97) keeps the frame complete. -/
theorem framed_clearDirty_reencode (h : Framed s) (hm : s.mem.wf) (hhwm : s.hwm.toNat ≤ 512) :
    Framed (clearDirty (reencode s)) :=
  framed_of_tableEncoded h.past_uninit (h.headerInPlace_reencode hm hhwm)
    (fun i hi hle => (chanAt_reencode i).trans (h.zeros.1 i hi hle)) (h.tableEncoded_reencode hm hhwm)

/-- Starting a transfer only reads the buffer. -/
theorem framed_sent (h : Framed s) : Framed (sent s) :=
  h.of_untouched rfl rfl rfl rfl rfl

/-- The mark after an accepted write, as a number (R81). -/
theorem raiseHwm_toNat {hwm : BitVec 10} {top : Nat} (hh : hwm.toNat ≤ 512) (ht : top ≤ 512) :
    (raiseHwm hwm top).toNat = max hwm.toNat top := by
  rw [raiseHwm, BitVec.toNat_ofNat, Nat.mod_eq_of_lt (by omega)]

/-- The state an accepted write of `data` from channel `start` on leaves (R81). -/
def written (s : State) (start : Nat) (data : List Byte) : State :=
  { s with mem := s.mem.writeRun .ch start data, hwm := raiseHwm s.hwm (start + data.length), dirty := true }

/-- `written` is what the body of `setChannels` answers for an accepted range. -/
theorem writeChannels_of_accepted {start : Nat} {data : List Byte} (h : start + data.length ≤ 512) :
    writeChannels start data.length data s = written s start data :=
  if_pos (decide_eq_true h)

theorem fbAt_written (hm : s.mem.wf) (start : Nat) (data : List Byte) (o : Nat) :
    fbAt (written s start data) o = fbAt s o :=
  (Memory.read_writeRun s.mem .ch .fb start o data hm).trans (if_neg (by simp))

/-- Channels past the end of a write keep their values. -/
theorem chanAt_written_of_le (hm : s.mem.wf) {start i : Nat} {data : List Byte} (hi : start + data.length ≤ i) :
    chanAt (written s start data) i = chanAt s i :=
  (Memory.read_writeRun s.mem .ch .ch start i data hm).trans (if_neg (by omega))

/-- A write raises the mark to its end, so above the new mark the table is as it was; the buffer is not touched, and
the table is dirty (R81). -/
theorem framed_written (h : Framed s) (hm : s.mem.wf) (hhwm : s.hwm.toNat ≤ 512) {start : Nat} {data : List Byte}
    (hd : start + data.length ≤ 512) : Framed (written s start data) := by
  have hmark : (written s start data).hwm.toNat = max s.hwm.toNat (start + data.length) :=
    raiseHwm_toNat hhwm hd
  have hfb : fbAt (written s start data) = fbAt s := funext (fbAt_written hm start data)
  obtain ⟨hz, hskel⟩ := h.zeros
  refine ⟨h.past_uninit, fun o ho => (fbAt_written hm start data o).trans (h.header o ho), ?_,
    ⟨fun i hi hle => ?_, fun b hb hle => ?_⟩, fun _ hclean => by cases hclean⟩
  · simpa only [BlocksEncoded, hfb] using h.blocks
  · rw [chanAt_written_of_le hm (by omega), hz i hi (by omega)]
  · simpa only [hfb] using hskel b hb (by omega)

/-- The end of a transfer touches the transport only (R122). -/
theorem framed_transportComplete (h : Framed s) : Framed (transportComplete s) := by
  rw [transportComplete_eq]
  exact h.of_untouched rfl rfl rfl rfl rfl

/-- Entering the wait leaves the buffer, and asks nothing of the clean one (R104, R37). -/
theorem framed_enterResetWait (h : Framed s) : Framed (enterResetWait s) :=
  ⟨by simp, h.header, h.blocks, h.zeros, fun hr => by cases hr⟩

/-- Every operation keeps the frame complete. -/
theorem Effect.keeps_framed {i : Instr} (he : Effect s i t) (hi : Inv s) (h : Framed s) : Framed t := by
  cases he with
  | raised i code info => exact h.of_untouched rfl rfl rfl rfl rfl
  | nothing i _ => exact h
  | wrote i start data hr hd _ => exact framed_written h hi.wf (hi.hwm_le hr.1) hd
  | answered index _ _ => exact h.of_untouched rfl rfl rfl rfl rfl
  | sentNew hr _ _ => exact framed_sent (framed_clearDirty_reencode h hi.wf (hi.hwm_le hr.1))
  | sentOld _ _ _ => exact framed_sent h
  | waits _ => exact framed_enterResetWait h
  | broughtUp hl _ => exact absurd hl h.past_uninit

/-- Taking a turn off the schedule touches no element the invariant speaks of. -/
theorem inv_afterTurn (h : Inv s) : Inv (afterTurn s) :=
  ⟨h.wf, h.hwm_le, h.pending_clear, h.transfer, h.setUp, h.log_length⟩

theorem framed_afterTurn (h : Framed s) : Framed (afterTurn s) :=
  h.of_untouched rfl rfl rfl rfl rfl

/-- Every step of every agent keeps the frame complete. -/
theorem Move.keeps_framed (hmove : Move s t) (hi : Inv s) (h : Framed s) : Framed t := by
  cases hmove with
  | clock now rest _ => exact h.of_untouched rfl rfl rfl rfl rfl
  | complete rest _ => exact framed_transportComplete (framed_afterTurn h)
  | hold _ => exact framed_afterTurn h
  | finish _ _ _ => exact framed_resetFinish hi.wf
  | badWord c rest code _ _ => exact h.of_untouched rfl rfl rfl rfl rfl
  | operation c rest i t _ _ _ _ he => exact he.keeps_framed (inv_afterTurn hi) (framed_afterTurn h)

/-- Settles O45: ResetFinish encodes the zero table, and each kind of move either leaves the buffer, re-encodes the
table, or writes channels below the mark it raises. -/
theorem everyStepKeepsTheFrameComplete : Obligations.EveryStepKeepsTheFrameComplete :=
  ⟨fun _ hm => framed_resetFinish hm, fun s t hi h hstep => (step_move s t hstep).keeps_framed hi h⟩

/-- Settles O38: the core's turn in RESET_WAIT is ResetPoll, which holds while busy and else is ResetFinish. -/
theorem resetFinishLeavesTheResetValues : Obligations.ResetFinishLeavesTheResetValues := by
  intro s rest hl hf hm ht
  have hm : ({ s with turns := rest } : State).mem.wf := hm
  rw [step_of_core_waiting hl hf ht]
  exact ⟨fun hb => congrArg _ (resetPoll_of_busy hb), fun hb => ⟨_, congrArg _ (resetPoll_of_idle hb),
    chanAt_resetFinish _ hm, headerInPlace_resetFinish hm, fun _ _ => fbAt_resetFinish_block hm, rfl⟩⟩

end Sys2Proof.Machine
end

section
/-! PROOFS. The words of the map: a word spells an operation by mask and match (O2), and what executing a word of no
operation does (O6); the one-channel write is a run of one (O15). -/

namespace Sys2Proof

/-! ### Fields of a word as numbers -/

/-- A field of a word is all 0 exactly when its bits are, read as a number. -/
theorem extractLsb'_eq_zero_iff (w : Word) (lo n : Nat) :
    w.extractLsb' lo n = 0#n ↔ w.toNat / 2 ^ lo % 2 ^ n = 0 := by
  rw [← BitVec.toNat_inj, BitVec.extractLsb'_toNat, Nat.shiftRight_eq_div_pow, BitVec.toNat_ofNat, Nat.zero_mod]

/-- `OP` is the number the top four bits of the word spell (R59). -/
theorem opField_toNat (w : Word) : (opField w).toNat = w.toNat / 2 ^ 28 := by
  have := w.isLt
  rw [opField, BitVec.extractLsb'_toNat, Nat.shiftRight_eq_div_pow]
  omega

theorem opField_eq_iff (w : Word) (op : BitVec 4) : opField w = op ↔ w.toNat / 2 ^ 28 = op.toNat := by
  rw [← BitVec.toNat_inj, opField_toNat]

/-! ### The mask and the match of a row (R66) -/

/-- The mask that selects `OP` and the `n` bits from bit `lo` on. -/
def rowMask (lo n : Nat) : Word := place 28 (BitVec.allOnes 4) ||| place lo (BitVec.allOnes n)

theorem getLsbD_place_allOnes {lo n j : Nat} (hj : j < 32) :
    (place lo (BitVec.allOnes n)).getLsbD j = decide (lo ≤ j ∧ j < lo + n) := by
  rw [getLsbD_place, BitVec.getLsbD_allOnes]
  by_cases hlo : lo ≤ j
  · simp [hj, hlo, show j - lo < n ↔ j < lo + n by omega]
  · simp [hlo]

/-- Under a row's mask a word equals the bare `OP` exactly when its `OP` is that one and the other selected bits are 0. -/
theorem and_rowMask_eq_iff (w : Word) (op : BitVec 4) (lo n : Nat) (h : lo + n ≤ 28) :
    w &&& rowMask lo n = place 28 op ↔ opField w = op ∧ w.extractLsb' lo n = 0#n := by
  have hmask : ∀ j < 32, (w &&& rowMask lo n).getLsbD j =
      (w.getLsbD j && (decide (28 ≤ j) || decide (lo ≤ j ∧ j < lo + n))) := fun j hj => by
    rw [rowMask, BitVec.getLsbD_and, BitVec.getLsbD_or, getLsbD_place_allOnes hj, getLsbD_place_allOnes hj]
    simp [show j < 28 + 4 from hj]
  have hop : ∀ j < 32, (place 28 op).getLsbD j = (decide (28 ≤ j) && op.getLsbD (j - 28)) := fun j hj => by
    rw [getLsbD_place, decide_eq_true hj, Bool.true_and]
  refine ⟨fun he => ⟨?_, ?_⟩, fun ⟨hw, hz⟩ => ?_⟩
  · refine BitVec.eq_of_getLsbD_eq fun j hj => ?_
    have hbit := hmask (28 + j) (by omega)
    rw [he, hop _ (by omega)] at hbit
    simpa [opField, hj] using hbit.symm
  · refine BitVec.eq_of_getLsbD_eq fun j hj => ?_
    have hbit := hmask (lo + j) (by omega)
    rw [he, hop _ (by omega)] at hbit
    simpa [hj, show ¬ 28 ≤ lo + j by omega] using hbit.symm
  · refine BitVec.eq_of_getLsbD_eq fun j hj => ?_
    rw [hmask j hj, hop j hj, ← hw]
    by_cases hsel : lo ≤ j ∧ j < lo + n
    · have hbit : w.getLsbD j = false := by
        simpa [show j - lo < n by omega, show lo + (j - lo) = j by omega] using congrArg (·.getLsbD (j - lo)) hz
      simp [hbit, show ¬ 28 ≤ j by omega]
    · rw [decide_eq_false hsel]
      by_cases h28 : 28 ≤ j
      · simp [opField, h28, show j - 28 < 4 by omega]
      · simp [h28]

/-! ### What the decoder says (R68) -/

/-- The commands that spell an operation: its `OP`, its must-be-0 bits, its data bytes and its operands (R60 to R66). -/
def Spells (c : Command) : Instr → Prop
  | .initializeCore => opField c.word = 0x1#4 ∧ c.word.extractLsb' 0 28 = 0#28 ∧ c.data = []
  | .reset => opField c.word = 0x2#4 ∧ c.word.extractLsb' 0 28 = 0#28 ∧ c.data = []
  | .serviceTick => opField c.word = 0x3#4 ∧ c.word.extractLsb' 0 28 = 0#28 ∧ c.data = []
  | .setChannel index value =>
    opField c.word = 0x4#4 ∧ c.word.extractLsb' 8 8 = 0#8 ∧ c.data = [] ∧
      idxField c.word = index ∧ valField c.word = value
  | .setChannels start length data =>
    opField c.word = 0x5#4 ∧ c.word.extractLsb' 12 4 = 0#4 ∧ c.data.length = (lenField c.word).toNat ∧
      idxField c.word = start ∧ lenField c.word = length ∧ c.data = data
  | .getChannel index =>
    opField c.word = 0x6#4 ∧ c.word.extractLsb' 0 16 = 0#16 ∧ c.data = [] ∧ idxField c.word = index

/-- The decoder answers an operation exactly for the commands that spell it: each of its branches has the `OP` of one
operation. -/
theorem decode_eq_op_iff (c : Command) (i : Instr) : decode c = .op i ↔ Spells c i := by
  unfold decode
  split_ifs
  all_goals cases i <;> simp_all [verdictOf_eq_op, Spells, Instr.dataFits]

/-- A word of the second kind of R67: a defined `OP` with a must-be-0 bit set. -/
def ReservedBitSet (w : Word) : Prop :=
  ((opField w = 0x1#4 ∨ opField w = 0x2#4 ∨ opField w = 0x3#4) ∧ w.extractLsb' 0 28 ≠ 0#28) ∨
    (opField w = 0x4#4 ∧ w.extractLsb' 8 8 ≠ 0#8) ∨ (opField w = 0x5#4 ∧ w.extractLsb' 12 4 ≠ 0#4) ∨
    (opField w = 0x6#4 ∧ w.extractLsb' 0 16 ≠ 0#16)

theorem verdictOf_eq_reservedBits (a b : Bool) (i : Instr) : verdictOf a b i = .reservedBits ↔ a = false := by
  cases a <;> cases b <;> simp [verdictOf]

theorem verdictOf_ne_illegalCommand (a b : Bool) (i : Instr) : verdictOf a b i ≠ .illegalCommand := by
  cases a <;> cases b <;> simp [verdictOf]

theorem decode_eq_reservedBits_iff (c : Command) : decode c = .reservedBits ↔ ReservedBitSet c.word := by
  unfold decode
  split_ifs
  all_goals simp_all [verdictOf_eq_reservedBits, ReservedBitSet]

/-- The decoder finds no row exactly for the words of the first kind of R67. -/
theorem decode_eq_illegalCommand_iff (c : Command) :
    decode c = .illegalCommand ↔ (opField c.word).toNat = 0 ∨ 7 ≤ (opField c.word).toNat := by
  unfold decode
  split_ifs
  all_goals simp_all [verdictOf_ne_illegalCommand]
  bv_omega

end Sys2Proof

namespace Sys2Proof.Machine

/-- Settles O2: the decoder asks for a row's `OP` and must-be-0 bits, which are what the row's mask selects. -/
theorem wordSpellsByMatchAndMask : Obligations.WordSpellsByMatchAndMask := by
  intro w data
  have row := and_rowMask_eq_iff w
  refine ⟨fun hd => ?_, fun hd => ?_⟩
  · subst hd
    refine ⟨.trans ?_ (row 0x1#4 0 28 (by decide)).symm, .trans ?_ (row 0x2#4 0 28 (by decide)).symm,
      .trans ?_ (row 0x3#4 0 28 (by decide)).symm, .trans ?_ (row 0x4#4 8 8 (by decide)).symm,
      .trans ?_ (row 0x6#4 0 16 (by decide)).symm⟩
    all_goals simp [decode_eq_op_iff, Spells]
  · have hlen : data.length = (lenField w).toNat := by rw [hd, lenField, BitVec.extractLsb'_toNat]; rfl
    refine .trans ?_ (row 0x5#4 12 4 (by decide)).symm
    simp [decode_eq_op_iff, Spells, hlen]

/-- A turn of the host leaves the schedule and is the core's acceptance of the command. -/
theorem step_of_host {s : State} {c : Command} {rest : List Turn} (ht : s.turns = .host c :: rest) :
    step s = hostTurn c { s with turns := rest } := by
  rw [step, takeTurn, ht]

/-- While no fault is recorded, a word the decoder finds no row for raises that verdict, whatever the lifecycle state. -/
theorem hostTurn_of_illegalCommand {s : State} {c : Command} (hf : s.fault = none)
    (hd : decode c = .illegalCommand) : hostTurn c s = raise .illegalCommand c.word s := by
  simp [hostTurn, whileRunning, hf, hd]

theorem hostTurn_of_reservedBits {s : State} {c : Command} (hf : s.fault = none) (hd : decode c = .reservedBits) :
    hostTurn c s = raise .reservedBits c.word s := by
  simp [hostTurn, whileRunning, hf, hd]

/-- Settles O6: the words it names are those the decoder finds no row for, and those with a must-be-0 bit set. -/
theorem wordsOutsideTheMapRaise : Obligations.WordsOutsideTheMapRaise := by
  intro s c rest hf ht
  rw [step_of_host ht]
  refine ⟨fun hop => ?_, fun hbits => ?_⟩
  · refine hostTurn_of_illegalCommand hf ((decode_eq_illegalCommand_iff c).mpr ?_)
    rwa [opField_toNat]
  · refine hostTurn_of_reservedBits hf ((decode_eq_reservedBits_iff c).mpr ?_)
    simp only [ReservedBitSet, opField_eq_iff, ne_eq, extractLsb'_eq_zero_iff, BitVec.toNat_ofNat]
    rcases hbits with ⟨hlo, hhi, hz⟩ | ⟨hop, hz⟩ | ⟨hop, hz⟩ | ⟨hop, hz⟩
    · exact .inl ⟨by omega, by simpa using hz⟩
    · exact .inr (.inl ⟨hop, hz⟩)
    · exact .inr (.inr (.inl ⟨hop, hz⟩))
    · exact .inr (.inr (.inr ⟨hop, by simpa using hz⟩))

/-- What `setChannel` does in a ready core (R82). -/
theorem exec_setChannel_of_ready {s : State} (h : s.Ready) (index : Field) (value : Byte) :
    exec (.setChannel index value) s = .next (writeChannels index.toNat 1 [value] s) :=
  whenReady_of_ready _ _ _ h

/-- What a well-formed `setChannels` does in a ready core (R81). -/
theorem exec_setChannels_of_ready {s : State} (h : s.Ready) (start : Field) {length : Field} {data : List Byte}
    (hd : data.length = length.toNat) :
    exec (.setChannels start length data) s = .next (writeChannels start.toNat length.toNat data s) :=
  (if_pos (beq_iff_eq.mpr hd)).trans (whenReady_of_ready _ _ _ h)

/-- Settles O15: both bodies are the write of R81, of one byte at the index. -/
theorem oneChannelIsARunOfOne : Obligations.OneChannelIsARunOfOne := by
  intro index value
  refine ⟨?_, fun s hr => ?_⟩
  · have hop : opField (encode (.setChannel index value)).word = 0x4#4 := opField_formatW _ _ _
    exact (opField_eq_iff _ _).mp hop
  · rw [exec_setChannel_of_ready hr, exec_setChannels_of_ready hr index (length := 1#12) rfl]
    rfl

end Sys2Proof.Machine
end

section
/-! PROOFS. The block format: where the start, data and stop bits of every slot lie (O21), and the eleven byte formulas
(O22). -/

namespace Sys2Proof.Machine

/-! ### Block bits (R75) -/

/-- The block after the first `n` turns of the loop of R87. -/
def slotsEncoded (c : Nat → Byte) (n : Nat) : List Byte :=
  (List.range n).foldl (fun out k => orSlot out k (c k)) skel

theorem slotsEncoded_zero (c : Nat → Byte) : slotsEncoded c 0 = skel := rfl

theorem slotsEncoded_succ (c : Nat → Byte) (n : Nat) :
    slotsEncoded c (n + 1) = orSlot (slotsEncoded c n) n (c n) := by
  rw [slotsEncoded, List.range_succ, List.foldl_append]
  rfl

/-- EncodeBlock is all eight turns of the loop. -/
theorem encodeBlock_eq_slotsEncoded (c : Nat → Byte) : encodeBlock c = slotsEncoded c 8 := rfl

@[simp] theorem slotsEncoded_length (c : Nat → Byte) (n : Nat) : (slotsEncoded c n).length = 11 := by
  induction n with
  | zero => rfl
  | succ n ih => rw [slotsEncoded_succ, orSlot_length, ih]

/-- The skeleton has every start bit and data bit 0, and both stop bits of every slot 1 (R76). -/
theorem streamBit_skel : ∀ k < 8, ∀ p < 11, streamBit skel (11 * k + p) = decide (9 ≤ p) := by decide

/-- Each turn of the loop sets the data bits of its own slot, and no bit of another. -/
theorem streamBit_slotsEncoded (c : Nat → Byte) {n k p : Nat} (hn : n ≤ 8) (hk : k < 8) (hp : p < 11) :
    streamBit (slotsEncoded c n) (11 * k + p) =
      (decide (9 ≤ p) || (decide (k < n ∧ 1 ≤ p ∧ p < 9) && (c k).getLsbD (p - 1))) := by
  induction n with
  | zero => simp [slotsEncoded_zero, streamBit_skel k hk p hp]
  | succ n ih =>
    rw [slotsEncoded_succ, streamBit_orSlot _ _ _ _ (by rw [slotsEncoded_length]; omega), ih (by omega)]
    rcases Nat.lt_trichotomy k n with hkn | rfl | hkn
    · simp [hkn, show k < n + 1 by omega, show ¬ (11 * n + 1 ≤ 11 * k + p) by omega]
    · simp [show 11 * k + p - (11 * k + 1) = p - 1 by omega, show 11 * k + p < 11 * k + 9 ↔ p < 9 by omega,
        show 11 * k + 1 ≤ 11 * k + p ↔ 1 ≤ p by omega]
    · simp [show ¬ k < n by omega, show ¬ k < n + 1 by omega, show ¬ (11 * k + p < 11 * n + 9) by omega]

/-- Every bit of a block (R75). -/
theorem streamBit_encodeBlock (c : Nat → Byte) {k p : Nat} (hk : k < 8) (hp : p < 11) :
    streamBit (encodeBlock c) (11 * k + p) =
      (decide (9 ≤ p) || (decide (1 ≤ p ∧ p < 9) && (c k).getLsbD (p - 1))) := by
  rw [encodeBlock_eq_slotsEncoded, streamBit_slotsEncoded c (Nat.le_refl 8) hk hp]
  simp [hk]

/-- Bit `p` of block `b` in the stream of a frame: its byte, and its place in the byte. -/
theorem streamBit_encodeFrame_eq_getD (header : List Byte) (ch : Nat → Byte) (b p : Nat) :
    streamBit (encodeFrame header ch) (40 + 88 * b + p) =
      ((encodeFrame header ch).getD (5 + 11 * b + p / 8) 0#8).getLsbD (p % 8) := by
  rw [streamBit, show (40 + 88 * b + p) / 8 = 5 + 11 * b + p / 8 by omega, show (40 + 88 * b + p) % 8 = p % 8 by omega]

/-- Block `b` of a frame has the bits of EncodeBlock of its eight channels. -/
theorem streamBit_encodeFrame_block {header : List Byte} (ch : Nat → Byte) {b p : Nat} (h : header.length = 5)
    (hb : b < 64) (hp : p < 88) :
    streamBit (encodeFrame header ch) (40 + 88 * b + p) = streamBit (encodeBlock fun k => ch (8 * b + k)) p := by
  rw [streamBit_encodeFrame_eq_getD, encodeFrame_block header ch b (p / 8) h hb (by omega), streamBit]

/-- Settles O21: a start bit, data bits and stop bits of a slot are its bits 0, 1 to 8, and 9 and 10. -/
theorem slotsLieWhereTheFormatSays : Obligations.SlotsLieWhereTheFormatSays := by
  refine ⟨fun c k hk => ?_, fun header ch b p h hb hp =>
    ⟨streamBit_encodeFrame_block ch h hb hp, streamBit_encodeFrame_eq_getD header ch b p⟩⟩
  have slot {p : Nat} (hp : p < 11) := streamBit_encodeBlock c hk hp
  refine ⟨slot (p := 0) (by decide), fun j hj => ?_, slot (p := 9) (by decide), slot (p := 10) (by decide)⟩
  rw [Nat.add_assoc, slot (by omega)]
  simp [show ¬ 9 ≤ 1 + j by omega, show 1 + j < 9 by omega]

/-! ### Block bytes (R78) -/

/-- ORing a byte into byte `i` changes only that byte's stream bits. -/
theorem streamBit_modify_or {out : List Byte} {i : Nat} (x : Byte) (n : Nat) (hi : i < out.length) :
    streamBit (out.modify i (· ||| x)) n = (streamBit out n || (decide (n / 8 = i) && x.getLsbD (n % 8))) := by
  unfold streamBit
  by_cases hn : n / 8 = i
  · subst hn
    simp [List.getD_eq_getElem?_getD, hi]
  · simp [List.getD_eq_getElem?_getD, hn, Ne.symm hn]

/-- Byte lists of one length with the same stream bits are equal. -/
theorem eq_of_streamBit_eq {l l' : List Byte} (hlen : l.length = l'.length) (h : ∀ n, streamBit l n = streamBit l' n) :
    l = l' := by
  refine List.ext_getElem hlen fun i hi hi' => BitVec.eq_of_getLsbD_eq fun j hj => ?_
  have hbit := h (8 * i + j)
  rwa [streamBit, streamBit, show (8 * i + j) / 8 = i by omega, show (8 * i + j) % 8 = j by omega,
    List.getD_eq_getElem _ _ hi, List.getD_eq_getElem _ _ hi'] at hbit

/-- A channel byte ORed in as two shifted bytes: the low part from bit `q mod 8` of byte `q div 8` on, and the rest in
the byte after it, where `q` is the slot's first data bit (R78). -/
def orShifted (out : List Byte) (k : Nat) (c : Byte) : List Byte :=
  (out.modify ((11 * k + 1) / 8) (· ||| (c <<< ((11 * k + 1) % 8)))).modify ((11 * k + 1) / 8 + 1)
    (· ||| (c >>> (8 - (11 * k + 1) % 8)))

/-- Bit `n` of a stream that carries a byte from bit `q` on comes from one of the two bytes the byte reaches. -/
theorem getLsbD_shifted (c : Byte) (q n : Nat) :
    (decide (q ≤ n ∧ n < q + 8) && c.getLsbD (n - q)) =
      ((decide (n / 8 = q / 8) && (c <<< (q % 8)).getLsbD (n % 8)) ||
        (decide (n / 8 = q / 8 + 1) && (c >>> (8 - q % 8)).getLsbD (n % 8))) := by
  rw [BitVec.getLsbD_shiftLeft, BitVec.getLsbD_ushiftRight, decide_eq_true (Nat.mod_lt n (by decide : 0 < 8))]
  by_cases hlow : n / 8 = q / 8
  · by_cases hn : q ≤ n
    · simp [hlow, hn, show n % 8 - q % 8 = n - q by omega, show n < q + 8 by omega, show ¬ n % 8 < q % 8 by omega]
    · simp [hlow, hn, show n % 8 < q % 8 by omega]
  · by_cases hhigh : n / 8 = q / 8 + 1
    · by_cases hn : n < q + 8
      · simp [hhigh, hn, show 8 - q % 8 + n % 8 = n - q by omega, show q ≤ n by omega]
      · simp [hhigh, hn, BitVec.getLsbD_of_ge c _ (show 8 ≤ 8 - q % 8 + n % 8 by omega)]
    · simp [hlow, hhigh, show ¬ (q ≤ n ∧ n < q + 8) by omega]

/-- The eight bit writes of a slot are the two shift-and-OR writes. -/
theorem orSlot_eq_orShifted {out : List Byte} {k : Nat} (c : Byte) (h : (11 * k + 1) / 8 + 1 < out.length) :
    orSlot out k c = orShifted out k c := by
  refine eq_of_streamBit_eq (by simp [orShifted]) fun n => ?_
  rw [orShifted, streamBit_orSlot _ _ _ _ (by omega), streamBit_modify_or _ _ (by simpa using h),
    streamBit_modify_or _ _ (by omega), Bool.or_assoc]
  exact congrArg _ (getLsbD_shifted c (11 * k + 1) n)

/-- Settles O22: each slot is two shift-and-OR writes into the skeleton; the second write of slot 5, whose data fill
block byte 7, adds nothing. -/
theorem blockBytesAreTheShiftAndOrFormulas : Obligations.BlockBytesAreTheShiftAndOrFormulas := by
  intro c
  have hfull : c 5 >>> 8 = 0#8 := BitVec.ushiftRight_eq_zero (Nat.le_refl 8)
  rw [encodeBlock_eq_slotsEncoded]
  simp [slotsEncoded_succ, slotsEncoded_zero, orSlot_eq_orShifted, orShifted, skel, hfull]

end Sys2Proof.Machine
end

section
/-! PROOFS. Channel access: a rejected write changes nothing (O14), a written byte is read back across ticks (O18), and
the High-Water Mark is the maximum over the accepted writes (O19). -/

namespace Sys2Proof.Machine

variable {s t u : State}

/-! ### The body of a write (R81) -/

/-- A range that passes channel 511 is dropped whole (R85). -/
theorem writeChannels_of_rejected {start length : Nat} (data : List Byte) (h : 512 < start + length) :
    writeChannels start length data s = s :=
  if_neg (by simpa [writeAccepted] using h)

/-- Channels inside a write hold its bytes, in order. -/
theorem chanAt_written_of_mem (hm : s.mem.wf) {start i : Nat} {data : List Byte} (hlo : start ≤ i)
    (hhi : i < start + data.length) (hd : start + data.length ≤ 512) :
    chanAt (written s start data) i = data.getD (i - start) 0#8 :=
  (Memory.read_writeRun s.mem .ch .ch start i data hm).trans
    (if_pos ⟨rfl, hlo, hhi, Nat.lt_of_lt_of_le hhi hd⟩)

@[simp] theorem writeChannels_life (start length : Nat) (data : List Byte) :
    (writeChannels start length data s).life = s.life := by
  unfold writeChannels
  split <;> rfl

/-- The end of an accepted write fits the mark's 10 bits beside every old mark. -/
theorem raiseHwm_toNat_of_le (hwm : BitVec 10) {top : Nat} (ht : top ≤ 512) :
    (raiseHwm hwm top).toNat = max hwm.toNat top := by
  have := hwm.isLt
  rw [raiseHwm, BitVec.toNat_ofNat, Nat.mod_eq_of_lt (by omega)]

/-- Settles O14: the body of `setChannels` rejects the range, and a ready core runs the body. -/
theorem runPastTheTableChangesNothing : Obligations.RunPastTheTableChangesNothing := by
  intro s start length data hr hd hpast
  rw [exec_setChannels_of_ready hr start hd, writeChannels_of_rejected data hpast]

/-! ### Ticks keep the Channel Table (R86) -/

/-- From `s` to `t` the core stayed in its mode, and neither the Channel Table nor the mark was written. -/
structure TableKept (s t : State) : Prop where
  life : t.life = s.life
  fault : t.fault = s.fault
  hwm : t.hwm = s.hwm
  table : t.mem.ch = s.mem.ch

theorem TableKept.refl (s : State) : TableKept s s := ⟨rfl, rfl, rfl, rfl⟩

theorem TableKept.trans (h : TableKept s t) (h' : TableKept t u) : TableKept s u :=
  ⟨h'.life.trans h.life, h'.fault.trans h.fault, h'.hwm.trans h.hwm, h'.table.trans h.table⟩

theorem TableKept.ready (h : TableKept s t) (hr : s.Ready) : t.Ready := ⟨h.life.trans hr.1, h.fault.trans hr.2⟩

theorem TableKept.chanAt_eq (h : TableKept s t) (i : Nat) : chanAt t i = chanAt s i := by
  rw [chanAt, chanAt, Memory.read_ch, Memory.read_ch, h.table]

theorem tableKept_sent (s : State) : TableKept s (sent s) := ⟨rfl, rfl, rfl, rfl⟩

/-- The re-encode of a tick writes the frame buffer only. -/
theorem tableKept_encodeIfDirty (s : State) : TableKept s (encodeIfDirty s) := by
  unfold encodeIfDirty
  split
  · exact ⟨rfl, rfl, rfl, encodeUpTo_ch _ _⟩
  · exact .refl s

theorem tableKept_transportComplete (s : State) : TableKept s (transportComplete s) := by
  rw [transportComplete_eq]
  exact ⟨rfl, rfl, rfl, rfl⟩

theorem encodeIfDirty_now (s : State) : (encodeIfDirty s).now = s.now := by
  unfold encodeIfDirty
  split <;> rfl

theorem encodeIfDirty_tBusy (s : State) : (encodeIfDirty s).tBusy = s.tBusy := by
  unfold encodeIfDirty
  split <;> rfl

/-- A tick of a ready core that finds the transport busy does nothing (R97). -/
theorem exec_serviceTick_of_busy (hr : s.Ready) (hb : s.tBusy = true) : exec .serviceTick s = .next s :=
  (whenReady_of_ready _ _ _ hr).trans (if_pos hb)

/-- A tick of a ready core that finds the transport idle encodes what is dirty, then sends if a transfer is owed or the
refresh is due (R97). -/
theorem exec_serviceTick_of_idle (hr : s.Ready) (hb : s.tBusy = false) :
    exec .serviceTick s = .next
      (if (encodeIfDirty s).pending || refreshDue (encodeIfDirty s).cfg (encodeIfDirty s).now (encodeIfDirty s).lastTx
        then sent (encodeIfDirty s) else encodeIfDirty s) := by
  rw [← transmitIfOwed_of_idle _ ((encodeIfDirty_tBusy s).trans hb), encodeIfDirty_now]
  exact (whenReady_of_ready _ _ _ hr).trans (if_neg (by simp [isBusy, hb]))

theorem tableKept_of_tick (hr : s.Ready) (h : exec .serviceTick s = .next t) : TableKept s t := by
  cases hb : s.tBusy with
  | true =>
    rw [exec_serviceTick_of_busy hr hb] at h
    cases h
    exact .refl s
  | false =>
    rw [exec_serviceTick_of_idle hr hb] at h
    cases h
    split
    · exact (tableKept_encodeIfDirty s).trans (tableKept_sent _)
    · exact tableKept_encodeIfDirty s

/-- Ticks, clock movements and completions keep the Channel Table of a ready core. -/
theorem TickRun.tableKept (h : TickRun s u) (hr : s.Ready) : TableKept s u := by
  induction h with
  | done => exact .refl s
  | tick t u _ htick ih => exact ih.trans (tableKept_of_tick (ih.ready hr) htick)
  | clock t now _ ih => exact ih.trans ⟨rfl, rfl, rfl, rfl⟩
  | complete t _ ih => exact ih.trans (tableKept_transportComplete t)

/-- What `getChannel` of an index in 0..511 answers in a ready core (R83). -/
theorem exec_getChannel_of_ready (hr : s.Ready) {index : Field} (hi : index.toNat ≤ 511) :
    exec (.getChannel index) s = .next (emitRead (chanAt s index.toNat) s) :=
  (whenReady_of_ready _ _ _ hr).trans (if_pos (decide_eq_true (Nat.lt_succ_of_le hi)))

/-- Settles O18: the write puts the byte into the table, and the run that follows keeps the table. -/
theorem writtenByteIsReadBack : Obligations.WrittenByteIsReadBack := by
  intro s index value hr hm hi
  have hin : index.toNat + [value].length ≤ 512 := Nat.succ_le_succ hi
  refine ⟨written s index.toNat [value], ?_, fun u hrun => ?_⟩
  · rw [exec_setChannel_of_ready hr]
    exact congrArg _ (writeChannels_of_accepted hin)
  · have hkept := hrun.tableKept (s := written s index.toNat [value]) hr
    have hbyte : chanAt u index.toNat = value := by
      rw [hkept.chanAt_eq, chanAt_written_of_mem hm (Nat.le_refl _) (by simp) hin, Nat.sub_self]
      rfl
    rw [exec_getChannel_of_ready (hkept.ready hr) hi, hbyte, emitRead]

/-! ### The mark after a run of channel operations (R84) -/

theorem markOf_nil : markOf [] = 0 := rfl

/-- The maximum over a list of writes is that of its first write and the rest. -/
theorem markOf_cons (w : Nat × Nat) (ws : List (Nat × Nat)) : markOf (w :: ws) = max (markOf [w]) (markOf ws) := by
  by_cases h : w.1 + w.2 ≤ 512
  · simp [markOf, h]
  · simp [markOf, h]

/-- One write raises the mark to its end if it is accepted, and leaves it otherwise. -/
theorem writeChannels_hwm_toNat (start : Nat) {length : Nat} {data : List Byte} (hd : data.length = length) :
    (writeChannels start length data s).hwm.toNat = max s.hwm.toNat (markOf [(start, length)]) := by
  subst hd
  by_cases h : start + data.length ≤ 512
  · rw [writeChannels_of_accepted h, written, raiseHwm_toNat_of_le _ h]
    simp [markOf, h]
  · rw [writeChannels_of_rejected data (by omega)]
    simp [markOf, h]

/-- A `setChannels` that answers a next state had as many bytes as its length says (R65), and passed to the precondition
of R80. -/
theorem exec_setChannels_next {start length : Field} {data : List Byte}
    (h : exec (.setChannels start length data) s = .next t) :
    data.length = length.toNat ∧ whenReady (.setChannels start length data) s
      (.next (writeChannels start.toNat length.toNat data s)) = .next t := by
  change execSetChannels start length data s = .next t at h
  unfold execSetChannels at h
  split at h
  · exact ⟨beq_iff_eq.mp ‹_›, h⟩
  · cases h

/-- An operation that answers a next state ran in a core with no fault (R110). -/
theorem fault_eq_none_of_exec {i : Instr} (h : exec i s = .next t) : s.fault = none := by
  cases i with
  | setChannels => exact (whileRunning_next _ _ _ (exec_setChannels_next h).2).1
  | initializeCore | reset | serviceTick | setChannel | getChannel => exact (whileRunning_next _ _ _ h).1

/-- A read keeps the lifecycle state and the mark, also where it raises. -/
theorem Effect.read_keeps {index : Field} (h : Effect s (.getChannel index) t) : t.life = s.life ∧ t.hwm = s.hwm := by
  cases h with
  | raised | nothing | answered => exact ⟨rfl, rfl⟩
  | wrote _ start data _ _ hi => rcases hi with hi | ⟨v, -, hi⟩ <;> cases hi

/-- After channel operations and ticks the mark is the maximum of what it was and the ends of the accepted writes. -/
theorem ChannelRun.hwm_toNat {ws : List (Nat × Nat)} (h : ChannelRun s ws t) (hl : s.life = .ready) :
    t.hwm.toNat = max s.hwm.toNat (markOf ws) := by
  induction h with
  | done s => rw [markOf_nil, Nat.max_zero]
  | writeRun s t u start length data ws hexec _ ih =>
    obtain ⟨hd, -⟩ := exec_setChannels_next hexec
    rw [exec_setChannels_of_ready ⟨hl, fault_eq_none_of_exec hexec⟩ start hd] at hexec
    cases hexec
    rw [ih (by rwa [writeChannels_life]), writeChannels_hwm_toNat _ hd, markOf_cons _ ws, Nat.max_assoc]
  | writeOne s t u index value ws hexec _ ih =>
    rw [exec_setChannel_of_ready ⟨hl, fault_eq_none_of_exec hexec⟩] at hexec
    cases hexec
    rw [ih (by rwa [writeChannels_life]), writeChannels_hwm_toNat _ (length := 1) rfl, markOf_cons _ ws, Nat.max_assoc]
  | read s t u index ws hexec _ ih =>
    obtain ⟨hlife, hhwm⟩ := (exec_effect _ _ _ hexec).read_keeps
    rw [ih (hlife.trans hl), hhwm]
  | tick s t u ws hexec _ ih =>
    have hkept := tableKept_of_tick ⟨hl, fault_eq_none_of_exec hexec⟩ hexec
    rw [ih (hkept.life.trans hl), hkept.hwm]

/-! ### The mark under every step (R84) -/

/-- From `s` to `t` the mark was left, or raised to the end of a legal range. -/
def MarkRaised (s t : State) : Prop := ∃ top ≤ 512, t.hwm.toNat = max s.hwm.toNat top

theorem markRaised_of_hwm_eq (h : t.hwm = s.hwm) : MarkRaised s t := ⟨0, Nat.zero_le _, by rw [h, Nat.max_zero]⟩

/-- Of the operations only an accepted write moves the mark. -/
theorem Effect.markRaised {i : Instr} (h : Effect s i t) : MarkRaised s t := by
  cases h with
  | wrote _ start data _ hd _ => exact ⟨_, hd, raiseHwm_toNat_of_le _ hd⟩
  | raised | nothing | answered | sentNew | sentOld | waits | broughtUp => exact markRaised_of_hwm_eq rfl

/-- Every step leaves or raises the mark, or is ResetFinish. -/
theorem Move.markRaised_or_finish (h : Move s t) :
    MarkRaised s t ∨ (s.life = .resetWait ∧ t = resetFinish (afterTurn s)) := by
  cases h with
  | clock | hold | badWord => exact .inl (markRaised_of_hwm_eq rfl)
  | complete => exact .inl (markRaised_of_hwm_eq (tableKept_transportComplete _).hwm)
  | finish _ hl _ => exact .inr ⟨hl, rfl⟩
  | operation c rest i t _ _ _ _ he => exact .inl he.markRaised

/-- Settles O19: a run of channel operations takes the maximum write by write, and every step but ResetFinish leaves or
raises the mark, to 512 at most. -/
theorem markIsMaximumOfAcceptedWrites : Obligations.MarkIsMaximumOfAcceptedWrites := by
  refine ⟨fun s t ws hr hzero hrun => ?_, fun s t hstep => ?_, fun s t hle hstep => ?_⟩
  · rw [hrun.hwm_toNat hr.1, hzero]
    exact Nat.zero_max _
  · rcases (step_move s t hstep).markRaised_or_finish with ⟨top, -, htop⟩ | hfinish
    · exact .inl (by omega)
    · exact .inr hfinish
  · rcases (step_move s t hstep).markRaised_or_finish with ⟨top, hmax, htop⟩ | ⟨-, rfl⟩
    · omega
    · exact Nat.zero_le _

end Sys2Proof.Machine
end

section
/-! PROOFS. What the encoder depends on: the table and not the old buffer (O25), not the bound (O24), and for each byte
of a block only the slots whose data reach it (O26). -/

namespace Sys2Proof.Machine

variable {s t u : State} {m n : Memory}

/-! ### The encoder is a function of the table (R87, R89) -/

/-- EncodeBlock reads its eight channels only. -/
theorem encodeBlock_congr {c d : Nat → Byte} (h : ∀ k < 8, c k = d k) : encodeBlock c = encodeBlock d :=
  List.foldl_ext _ _ skel fun out k hk => by rw [h k (List.mem_range.mp hk)]

/-- EncodeFrame reads the 512 channels only. -/
theorem encodeFrame_congr {header : List Byte} {c d : Nat → Byte} (h : ∀ i < 512, c i = d i) :
    encodeFrame header c = encodeFrame header d := by
  unfold encodeFrame
  refine congrArg _ (List.flatMap_congr fun b hb => encodeBlock_congr fun k hk => h _ ?_)
  have := List.mem_range.mp hb
  omega

/-! ### EncodeUpTo at every bound (R88) -/

/-- A run of writes past the end of its space is dropped. -/
theorem Memory.writeRun_of_size_le {sp : Space} {a : Nat} (vs : List Byte) (ha : sp.size ≤ a) :
    m.writeRun sp a vs = m := by
  induction vs generalizing a with
  | nil => rfl
  | cons v vs ih =>
    have hdropped : m.write sp a v = m := if_neg (Nat.not_lt.mpr ha)
    rw [Memory.writeRun, hdropped, ih (by omega)]

/-- There are 64 blocks to rewrite, and no more. -/
theorem encodeBlocks_eq_min (k : Nat) (m : Memory) : encodeBlocks k m = encodeBlocks (min k 64) m := by
  induction k with
  | zero => rfl
  | succ k ih =>
    by_cases hk : k < 64
    · rw [Nat.min_eq_left hk]
    · have hpast : Space.size .fb ≤ 5 + 11 * k := by simp only [Space.size]; omega
      rw [encodeBlocks, Memory.writeRun_of_size_le _ hpast, ih, Nat.min_eq_right (by omega),
        Nat.min_eq_right (by omega)]

/-- The byte of the frame buffer at each address after a re-encode up to `h`. -/
theorem read_encodeUpTo (hm : m.wf) (h a : Nat) :
    (encodeUpTo h m).read .fb a = if 5 ≤ a ∧ a < 5 + 11 * min ((h + 7) / 8) 64 then
      (encodeBlock fun k => m.read .ch (8 * ((a - 5) / 11) + k)).getD ((a - 5) % 11) 0#8 else m.read .fb a := by
  rw [encodeUpTo, encodeBlocks_eq_min, read_encodeBlocks m hm _ (Nat.min_le_right _ _)]

/-- Block `b` after a re-encode up to `h`. -/
theorem read_encodeUpTo_block (hm : m.wf) (h : Nat) {b o : Nat} (hb : b < 64) (ho : o < 11) :
    (encodeUpTo h m).read .fb (5 + 11 * b + o) = if 8 * b < h then
      (encodeBlock fun k => m.read .ch (8 * b + k)).getD o 0#8 else m.read .fb (5 + 11 * b + o) := by
  rw [encodeUpTo, encodeBlocks_eq_min, read_encodeBlocks_block hm (Nat.min_le_right _ _) ho]
  exact if_congr (by omega) rfl rfl

theorem read_ch_encodeUpTo (h : Nat) (m : Memory) (i : Nat) : (encodeUpTo h m).read .ch i = m.read .ch i := by simp

/-- Two memories that read alike have the same bytes. -/
theorem Memory.bytes_congr {sp : Space} (h : ∀ a < sp.size, m.read sp a = n.read sp a) : m.bytes sp = n.bytes sp :=
  List.map_congr_left fun a ha => h a (List.mem_range.mp ha)

/-- Settles O25: the encoder's loop reads nothing but its channels, and a re-encode leaves those as they are. -/
theorem encodingIgnoresTheOldBuffer : Obligations.EncodingIgnoresTheOldBuffer := by
  refine ⟨fun c d => encodeBlock_congr, fun header c d => encodeFrame_congr, ?_, fun m h hm => ?_⟩
  · intro m n h hm hn htable b o hb hbh ho
    rw [read_encodeUpTo_block hm h hb ho, read_encodeUpTo_block hn h hb ho, if_pos hbh, if_pos hbh,
      encodeBlock_congr fun k hk => htable (8 * b + k) (by omega)]
  · refine Memory.bytes_congr fun a _ => ?_
    rw [read_encodeUpTo (wf_encodeUpTo h m hm)]
    split
    · rw [read_encodeUpTo hm, if_pos ‹_›]
      simp only [read_ch_encodeUpTo]
    · rfl

/-! ### The bound is not observable (R90) -/

/-- The state with its table re-encoded up to `h`. -/
def encodedUpTo (h : Nat) (s : State) : State := { s with mem := encodeUpTo h s.mem }

theorem chanAt_encodedUpTo (h : Nat) (s : State) : chanAt (encodedUpTo h s) = chanAt s :=
  funext (read_ch_encodeUpTo h s.mem)

theorem headerInPlace_encodedUpTo (hm : s.mem.wf) (hh : HeaderInPlace s) (h : Nat) :
    HeaderInPlace (encodedUpTo h s) := fun o ho =>
  (read_encodeUpTo hm h o).trans ((if_neg (by omega)).trans (hh o ho))

/-- Blocks below the bound are rewritten, and those above it are skeletons over zero channels. -/
theorem tableEncoded_encodedUpTo (hm : s.mem.wf) (hz : ZeroAboveMark s) {h : Nat} (hle : s.hwm.toNat ≤ h) :
    TableEncoded (encodedUpTo h s) := fun b hb o ho => by
  obtain ⟨hchan, hskel⟩ := hz
  rw [chanAt_encodedUpTo]
  refine (read_encodeUpTo_block hm h hb ho).trans ?_
  by_cases hbh : 8 * b < h
  · exact if_pos hbh
  · rw [if_neg hbh, ChannelsZeroAboveMark.encodeBlock_eq_skel hchan hb (by omega)]
    exact hskel b hb (by omega) o ho

/-- Settles O24: after the re-encode the header and every block are those of the table. -/
theorem encodeBoundIsNotObservable : Obligations.EncodeBoundIsNotObservable := by
  intro s h hm hh hz hle _
  have hframe := fbBytes_eq_tableFrame (headerInPlace_encodedUpTo hm hh h) (tableEncoded_encodedUpTo hm hz hle)
  rwa [tableFrame, chanAt_encodedUpTo] at hframe

/-! ### The buffer after an idle tick (R97, R37) -/

theorem encodeIfDirty_dirty (s : State) : (encodeIfDirty s).dirty = false := by
  unfold encodeIfDirty
  split
  · rfl
  · exact Bool.eq_false_iff.mpr ‹_›

theorem framed_encodeIfDirty (h : Framed s) (hm : s.mem.wf) (hhwm : s.hwm.toNat ≤ 512) :
    Framed (encodeIfDirty s) := by
  unfold encodeIfDirty
  split
  · exact (framed_clearDirty_reencode h hm hhwm).of_untouched rfl rfl rfl rfl rfl
  · exact h

/-- A tick that finds the transport idle leaves the whole frame of the table in the buffer, and the table clean. -/
theorem framed_and_clean_of_idle_tick (hr : s.Ready) (h : Framed s) (hm : s.mem.wf) (hhwm : s.hwm.toNat ≤ 512)
    (hb : s.tBusy = false) (htick : exec .serviceTick s = .next t) : Framed t ∧ t.dirty = false := by
  have hf := framed_encodeIfDirty h hm hhwm
  have hd := encodeIfDirty_dirty s
  rw [exec_serviceTick_of_idle hr hb] at htick
  cases htick
  split
  · exact ⟨framed_sent hf, hd⟩
  · exact ⟨hf, hd⟩

/-- A tick leaves the parameters (R31). -/
theorem tick_keeps_cfg (htick : exec .serviceTick s = .next t) : t.cfg = s.cfg := by
  cases exec_effect _ _ _ htick <;> rfl

/-- The buffer after an idle tick is the frame of the table the tick found. -/
theorem fbBytes_of_idle_tick (hr : s.Ready) (h : Framed s) (hm : s.mem.wf) (hhwm : s.hwm.toNat ≤ 512)
    (hb : s.tBusy = false) (htick : exec .serviceTick s = .next t) :
    fbBytes t = tableFrame s := by
  obtain ⟨hf, hd⟩ := framed_and_clean_of_idle_tick hr h hm hhwm hb htick
  have hkept := tableKept_of_tick hr htick
  rw [hf.clean (hkept.ready hr).1 hd, tableFrame, tableFrame, tick_keeps_cfg htick, funext hkept.chanAt_eq]

/-! ### The bytes a slot reaches (R77, R93) -/

/-- Byte `o` of a block holds a data bit of slot `k`: the bits `8 o` to `8 o + 7` meet `11 k + 1` to `11 k + 8`. -/
def ReachedBySlot (k o : Nat) : Prop := 11 * k + 1 ≤ 8 * o + 7 ∧ 8 * o ≤ 11 * k + 8

/-- A slot reaches the byte of its first data bit, and the next one unless its data fill the first. -/
theorem reachedBySlot_iff (k o : Nat) : ReachedBySlot k o ↔
    o = (11 * k + 1) / 8 ∨ ((11 * k + 1) % 8 ≠ 0 ∧ o = (11 * k + 1) / 8 + 1) := by
  unfold ReachedBySlot
  omega

/-- Two blocks that differ in slot `k` only agree on every byte the slot does not reach. -/
theorem encodeBlock_getD_eq_of_not_reached {c d : Nat → Byte} {k o : Nat} (hcd : ∀ j < 8, j ≠ k → c j = d j)
    (ho : o < 11) (hk : ¬ ReachedBySlot k o) : (encodeBlock c).getD o 0#8 = (encodeBlock d).getD o 0#8 := by
  refine BitVec.eq_of_getLsbD_eq fun j hj => ?_
  have hbit : streamBit (encodeBlock c) (8 * o + j) = streamBit (encodeBlock d) (8 * o + j) := by
    obtain ⟨i, p, hi, hp, hn⟩ : ∃ i p, i < 8 ∧ p < 11 ∧ 8 * o + j = 11 * i + p :=
      ⟨(8 * o + j) / 11, (8 * o + j) % 11, by omega, by omega, by omega⟩
    rw [hn, streamBit_encodeBlock c hi hp, streamBit_encodeBlock d hi hp]
    by_cases hdata : 1 ≤ p ∧ p < 9
    · have hik : i ≠ k := by rintro rfl; exact hk (by unfold ReachedBySlot; omega)
      rw [hcd i hi hik]
    · simp [hdata]
  rwa [streamBit, streamBit, show (8 * o + j) / 8 = o by omega, show (8 * o + j) % 8 = j by omega] at hbit

/-- Where the frames of two tables that agree off channel `i` can differ. -/
theorem reached_of_encodeFrame_getD_ne {header : List Byte} {c d : Nat → Byte} {i a : Nat} (hlen : header.length = 5)
    (hcd : ∀ j, j ≠ i → c j = d j) (ha : a < 709)
    (hne : (encodeFrame header c).getD a 0#8 ≠ (encodeFrame header d).getD a 0#8) :
    ∃ o, a = 5 + 11 * (i / 8) + o ∧ ReachedBySlot (i % 8) o := by
  by_cases h5 : a < 5
  · rw [encodeFrame_header _ _ _ (by omega), encodeFrame_header _ _ _ (by omega)] at hne
    exact absurd rfl hne
  · obtain ⟨b, o, hb, ho, rfl⟩ : ∃ b o, b < 64 ∧ o < 11 ∧ a = 5 + 11 * b + o :=
      ⟨(a - 5) / 11, (a - 5) % 11, by omega, by omega, by omega⟩
    rw [encodeFrame_block _ _ _ _ hlen hb ho, encodeFrame_block _ _ _ _ hlen hb ho] at hne
    by_cases hbi : b = i / 8
    · refine ⟨o, by rw [hbi], Classical.byContradiction fun hk => hne ?_⟩
      exact encodeBlock_getD_eq_of_not_reached (fun j hj hji => hcd _ (by omega)) ho hk
    · exact absurd (congrArg (·.getD o 0#8) (encodeBlock_congr fun k hk => hcd _ (by omega))) hne

/-- A write of one byte leaves every other channel. -/
theorem chanAt_written_of_ne (hm : s.mem.wf) {i j : Nat} (v : Byte) (hj : j ≠ i) :
    chanAt (written s i [v]) j = chanAt s j :=
  (Memory.read_writeRun s.mem .ch .ch i j [v] hm).trans (if_neg (by rw [List.length_singleton]; omega))

/-- Settles O26: before and after, the buffer is the frame of the table, and the two tables differ in the one channel,
or nowhere where the write was dropped. -/
theorem writeReachesOnlyItsSlotsBytes : Obligations.WriteReachesOnlyItsSlotsBytes := by
  intro s t u index value o hr hi hf hclean hb hwrite htick ho hne
  have hhwm := hi.hwm_le hr.1
  rw [exec_setChannel_of_ready hr] at hwrite
  cases hwrite
  rw [← getD_fbBytes _ _ ho, ← getD_fbBytes _ _ ho, hf.clean hr.1 hclean] at hne
  by_cases hin : index.toNat + [value].length ≤ 512
  · have hw : writeChannels index.toNat 1 [value] s = written s index.toNat [value] := writeChannels_of_accepted hin
    have hmark : (written s index.toNat [value]).hwm.toNat ≤ 512 :=
      (raiseHwm_toNat_of_le s.hwm hin).trans_le (max_le hhwm hin)
    have hframe : fbBytes u = tableFrame (written s index.toNat [value]) :=
      fbBytes_of_idle_tick hr (framed_written hf hi.wf hhwm hin) (Memory.wf_writeRun _ _ _ _ hi.wf) hmark hb
        (hw ▸ htick)
    rw [hframe] at hne
    obtain ⟨q, rfl, hreach⟩ := reached_of_encodeFrame_getD_ne (romHeader_length s.cfg)
      (fun j hj => chanAt_written_of_ne hi.wf value hj) ho hne
    refine ⟨Nat.le_of_lt_succ hin, ?_⟩
    rcases (reachedBySlot_iff _ _).mp hreach with rfl | ⟨hspills, rfl⟩
    · exact .inl rfl
    · exact .inr ⟨hspills, rfl⟩
  · have hw : writeChannels index.toNat 1 [value] s = s := writeChannels_of_rejected [value] (Nat.lt_of_not_le hin)
    have hframe : fbBytes u = tableFrame s := fbBytes_of_idle_tick hr hf hi.wf hhwm hb (hw ▸ htick)
    exact absurd (congrArg (·.getD o 0#8) hframe) hne

end Sys2Proof.Machine
end

section
/-! PROOFS. The receiver (R91): it reads every slot and the Start Code back from an encoded frame, so also from the one
ResetFinish leaves (O39). -/

namespace Sys2Proof.Machine

/-! ### One slot -/

/-- Bit `p` of the slot of byte `v`: a start bit 0, the data bits LSB first, two stop bits 1 (R75). -/
def slotBit (v : Byte) (p : Nat) : Bool := decide (9 ≤ p) || (decide (1 ≤ p ∧ p < 9) && v.getLsbD (p - 1))

/-- Summing the first `n` bits of a number by their weights gives it modulo `2 ^ n`. -/
theorem foldl_testBit_shiftLeft (x n : Nat) :
    (List.range n).foldl (fun acc j => acc + (x.testBit j).toNat <<< j) 0 = x % 2 ^ n := by
  induction n with
  | zero => simp [Nat.mod_one]
  | succ n ih =>
    rw [List.range_succ, List.foldl_append, ih, Nat.mod_pow_succ]
    simp [Nat.shiftLeft_eq, Nat.toNat_testBit, Nat.mul_comm]

/-- DecodeSlot reads a byte back from its slot. -/
theorem decodeSlot_of_slotBit {buf : List Byte} {pos : Nat} {v : Byte}
    (h : ∀ p < 11, streamBit buf (pos + p) = slotBit v p) : decodeSlot buf pos = some v := by
  have hstart : streamBit buf pos = false := h 0 (by decide)
  have hstop : streamBit buf (pos + 9) = true ∧ streamBit buf (pos + 10) = true :=
    ⟨h 9 (by decide), h 10 (by decide)⟩
  have hdata : ∀ j < 8, streamBit buf (pos + 1 + j) = v.toNat.testBit j := fun j hj => by
    rw [Nat.add_assoc, h (1 + j) (by omega)]
    simp [slotBit, show ¬ 9 ≤ 1 + j by omega, show 1 + j < 9 by omega, BitVec.testBit_toNat]
  have hsum : (List.range 8).foldl (fun acc j => acc + (streamBit buf (pos + 1 + j)).toNat <<< j) 0 = v.toNat := by
    rw [List.foldl_ext _ (fun acc j => acc + (v.toNat.testBit j).toNat <<< j) 0
      fun acc j hj => by rw [hdata j (List.mem_range.mp hj)], foldl_testBit_shiftLeft, Nat.mod_eq_of_lt v.isLt]
  rw [decodeSlot, if_neg (by simp [hstart, hstop]), hsum, BitVec.ofNat_toNat, BitVec.setWidth_eq]

/-- Slot `i` of the stream of a frame carries channel `i`. -/
theorem streamBit_encodeFrame_slot {header : List Byte} (ch : Nat → Byte) {i p : Nat} (h : header.length = 5)
    (hi : i < 512) (hp : p < 11) : streamBit (encodeFrame header ch) (40 + 11 * i + p) = slotBit (ch i) p := by
  rw [show 40 + 11 * i + p = 40 + 88 * (i / 8) + (11 * (i % 8) + p) by omega,
    streamBit_encodeFrame_block ch h (by omega) (by omega), streamBit_encodeBlock _ (by omega) hp,
    show 8 * (i / 8) + i % 8 = i by omega, slotBit]

/-- Slots that each decode to the byte of their channel decode to the run of those bytes. -/
theorem decodeSlots_of_decodeSlot {buf : List Byte} {ch : Nat → Byte} (n i : Nat)
    (h : ∀ j, i ≤ j → j < i + n → decodeSlot buf (40 + 11 * j) = some (ch j)) :
    decodeSlots buf i n = .ok ((List.range' i n).map ch) := by
  induction n generalizing i with
  | zero => rfl
  | succ n ih =>
    rw [decodeSlots, h i (Nat.le_refl i) (by omega), ih (i + 1) fun j hj hj' => h j (by omega) (by omega)]
    rfl

/-! ### The header (R73) -/

theorem replicate_takeRun_append (b : Bool) (l : List Bool) :
    List.replicate (takeRun b l).1 b ++ (takeRun b l).2 = l := by
  induction l with
  | nil => rfl
  | cons x xs ih =>
    unfold takeRun
    split
    · rename_i hx
      rw [List.replicate_succ, List.cons_append, ih, hx]
    · rfl

/-- Runs of `a` ones, `b` zeros and `m` ones: what stands before the Start Code slot (R73). -/
def runBits (a b m : Nat) : List Bool := List.replicate a true ++ (List.replicate b false ++ List.replicate m true)

@[simp] theorem runBits_length (a b m : Nat) : (runBits a b m).length = a + (b + m) := by simp [runBits]

/-- Header bits with legal runs are those runs, then the Start Code slot. -/
theorem eq_of_headerRuns {bits : List Bool} {a b m : Nat} (h : headerRuns bits = some (a, b, m)) :
    bits = runBits a b m ++ startCodeSlot ∧ 23 ≤ b ∧ 3 ≤ m := by
  have h1 := replicate_takeRun_append true bits
  have h2 := replicate_takeRun_append false (takeRun true bits).2
  have h3 := replicate_takeRun_append true (takeRun false (takeRun true bits).2).2
  unfold headerRuns at h
  simp only [Option.ite_none_right_eq_some, Option.some.injEq, Prod.mk.injEq] at h
  obtain ⟨⟨hslot, hb, hm⟩, rfl, rfl, rfl⟩ := h
  rw [hslot] at h3
  rw [runBits, List.append_assoc, List.append_assoc, h3, h2, h1]
  exact ⟨rfl, hb, hm⟩

theorem getD_headerBits (buf : List Byte) {n : Nat} (h : n < 40) : (headerBits buf).getD n false = streamBit buf n := by
  simp [headerBits, List.getD_eq_getElem?_getD, h]

/-- The runs before the Start Code slot take the first 29 of the 40 header bits. -/
theorem headerRuns_sum {buf : List Byte} {a b m : Nat} (h : headerRuns (headerBits buf) = some (a, b, m)) :
    a + b + m = 29 := by
  have hlen : (headerBits buf).length = (runBits a b m ++ startCodeSlot).length :=
    congrArg List.length (eq_of_headerRuns h).1
  have h40 : (headerBits buf).length = 40 := by simp [headerBits]
  have h11 : startCodeSlot.length = 11 := rfl
  rw [h40, List.length_append, runBits_length, h11] at hlen
  omega

/-- A legal header carries the slot of Start Code 0 from bit 29 on. -/
theorem decodeSlot_startCode {buf : List Byte} {a b m : Nat} (h : headerRuns (headerBits buf) = some (a, b, m)) :
    decodeSlot buf 29 = some 0#8 := by
  refine decodeSlot_of_slotBit fun p hp => ?_
  have hpre : (runBits a b m).length = 29 := by rw [runBits_length, ← Nat.add_assoc, headerRuns_sum h]
  have hslot : ∀ p < 11, startCodeSlot.getD p false = slotBit 0#8 p := by decide
  rw [← getD_headerBits buf (by omega), (eq_of_headerRuns h).1,
    List.getD_append_right _ _ _ _ (by omega), hpre, Nat.add_sub_cancel_left, hslot p hp]

/-- The header bits of a frame are those of its header. -/
theorem headerBits_encodeFrame {header : List Byte} (ch : Nat → Byte) (h : header.length = 5) :
    headerBits (encodeFrame header ch) = headerBits header :=
  List.map_congr_left fun n hn => by
    have hn := List.mem_range.mp hn
    rw [streamBit, encodeFrame_header _ _ _ (by omega), streamBit]

/-! ### The frame -/

/-- DecodeFrame reads an encoded frame back: the run lengths of its header, Start Code 0, and the table. -/
theorem decodeFrame_encodeFrame {header : List Byte} (ch : Nat → Byte) {a b m : Nat} (hlen : header.length = 5)
    (hruns : headerRuns (headerBits header) = some (a, b, m)) :
    decodeFrame (encodeFrame header ch) = .frame b m 0#8 ((List.range 512).map ch) := by
  rw [← headerBits_encodeFrame ch hlen] at hruns
  have hslots : decodeSlots (encodeFrame header ch) 0 512 = .ok ((List.range 512).map ch) := by
    rw [List.range_eq_range']
    exact decodeSlots_of_decodeSlot 512 0 fun j _ hj =>
      decodeSlot_of_slotBit fun p hp => streamBit_encodeFrame_slot ch hlen (by omega) hp
  simp only [decodeFrame, hruns, decodeSlot_startCode hruns, hslots]

/-- A legal header has five bytes, and legal runs. -/
theorem headerValid_iff (header : List Byte) :
    headerValid header = true ↔ header.length = 5 ∧ ∃ runs, headerRuns (headerBits header) = some runs := by
  simp [headerValid, Option.isSome_iff_exists]

/-- The ROM holds a five-byte header as it is. -/
theorem romHeader_of_length {cfg : Config} (h : cfg.header.length = 5) : romHeader cfg = cfg.header := by
  refine List.ext_getElem (by rw [romHeader_length, h]) fun o ho ho' => ?_
  rw [← List.getD_eq_getElem _ 0#8 ho, romHeader_getD _ _ (by omega), romRead, if_pos (by omega),
    List.getD_eq_getElem _ _ ho']

/-- Settles O39: ResetFinish leaves the frame of a table of zeros, which the receiver reads back. -/
theorem frameAfterResetDecodesToZeroSlots : Obligations.FrameAfterResetDecodesToZeroSlots := by
  refine ⟨fun s hm hvalid => ?_, by decide⟩
  obtain ⟨hlen, ⟨a, b, m⟩, hruns⟩ := (headerValid_iff _).mp hvalid
  have hframe : fbBytes (resetFinish s) = encodeFrame s.cfg.header (chanAt (resetFinish s)) := by
    rw [(framed_resetFinish hm).clean rfl rfl, tableFrame, resetFinish_cfg, romHeader_of_length hlen]
  have hzero : (List.range 512).map (chanAt (resetFinish s)) = List.replicate 512 0#8 :=
    List.eq_replicate_iff.mpr ⟨by simp, fun v hv => by
      obtain ⟨i, hi, rfl⟩ := List.mem_map.mp hv
      exact chanAt_resetFinish s hm i (List.mem_range.mp hi)⟩
  exact ⟨a, b, m, hruns, by rw [hframe, decodeFrame_encodeFrame _ hlen hruns, hzero]⟩

end Sys2Proof.Machine
end

section
/-! PROOFS. The scheduler: when the refresh is due (O28) and what its tick sends (O30), that no transfer is owed between
operations (O31), that a busy transport is left alone (O32), and that the writes made meanwhile go out in one frame
(O33). -/

namespace Sys2Proof.Machine

variable {s t u : State} {i : Instr} {r : Refusal}

/-! ### The refresh test (R96) -/

/-- Settles O28: a difference of 32-bit words is that of their numbers modulo 2^32. -/
theorem refreshIsDueStrictlyAfterTheInterval : Obligations.RefreshIsDueStrictlyAfterTheInterval := by
  intro cfg now lastTx
  rw [refreshDue, decide_eq_true_iff, elapsed, BitVec.toNat_sub, Nat.add_comm]

/-! ### The idle tick of a dirty and of a clean core (R97) -/

theorem encodeIfDirty_pending_of_dirty (hd : s.dirty = true) : (encodeIfDirty s).pending = true := by
  rw [encodeIfDirty, if_pos hd, setPending_pending]

theorem encodeIfDirty_of_clean (hd : s.dirty = false) : encodeIfDirty s = s :=
  if_neg (Bool.eq_false_iff.mp hd)

theorem encodeIfDirty_txLog (s : State) : (encodeIfDirty s).txLog = s.txLog := by
  unfold encodeIfDirty
  split <;> rfl

/-- An idle tick of a dirty core owes a transfer, and starts it. -/
theorem exec_serviceTick_of_dirty (hr : s.Ready) (hb : s.tBusy = false) (hd : s.dirty = true) :
    exec .serviceTick s = .next (sent (encodeIfDirty s)) := by
  rw [exec_serviceTick_of_idle hr hb, encodeIfDirty_pending_of_dirty hd, Bool.true_or, if_pos rfl]

/-- An idle tick of a clean core that owes nothing depends on the refresh alone. -/
theorem exec_serviceTick_of_clean (hr : s.Ready) (hb : s.tBusy = false) (hd : s.dirty = false)
    (hp : s.pending = false) :
    exec .serviceTick s = .next (if refreshDue s.cfg s.now s.lastTx then sent s else s) := by
  rw [exec_serviceTick_of_idle hr hb, encodeIfDirty_of_clean hd, hp, Bool.false_or]

/-- Settles O30: the two outcomes of the tick are those of the refresh test, read on numbers. -/
theorem refreshSendsTheUnchangedBuffer : Obligations.RefreshSendsTheUnchangedBuffer := by
  intro s hr hd hp hb
  rw [exec_serviceTick_of_clean hr hb hd hp]
  have hdue := refreshIsDueStrictlyAfterTheInterval s.cfg s.now s.lastTx
  refine ⟨fun hgt => ⟨sent s, ?_, rfl, rfl, rfl, rfl, hd⟩, fun hle => ?_⟩
  · rw [if_pos (hdue.mpr hgt)]
  · rw [if_neg fun h => Nat.not_lt.mpr hle (hdue.mp h)]

/-! ### No transfer is owed between operations (R99) -/

/-- Where an idle tick starts no transfer, none was owed. -/
theorem pending_clear_of_idle_tick (hr : s.Ready) (hb : s.tBusy = false) (h : exec .serviceTick s = .next t) :
    t.pending = false := by
  rw [exec_serviceTick_of_idle hr hb] at h
  cases h
  split
  case isTrue => rfl
  case isFalse hnot => exact (Bool.or_eq_false_iff.mp (Bool.eq_false_iff.mpr hnot)).1

/-- An operation leaves `pending`, or is a tick that clears it. -/
theorem Effect.keeps_pending_clear (h : Effect s i t) (hp : s.pending = false) : t.pending = false := by
  cases h with
  | sentNew | sentOld => rfl
  | raised | nothing | wrote | answered | waits | broughtUp => exact hp

theorem Move.keeps_pending_clear (h : Move s t) (hp : s.pending = false) : t.pending = false := by
  cases h with
  | clock | hold | badWord => exact hp
  | complete => rwa [transportComplete_eq]
  | finish => rfl
  | operation c rest i t _ _ _ _ he => exact he.keeps_pending_clear hp

/-- Settles O31: a tick starts the transfer it owes, and no other step sets `pending`. -/
theorem noTransferIsOwedBetweenOperations : Obligations.NoTransferIsOwedBetweenOperations :=
  ⟨fun _ _ hr hb htick => pending_clear_of_idle_tick hr hb htick,
    fun s t hp hstep => (step_move s t hstep).keeps_pending_clear hp⟩

/-! ### A step leaves the transfer alone, or starts one from an idle transport (R100) -/

/-- From `s` to `t` neither the buffer nor the log was written, and a transfer still in flight sends the same frame. -/
structure TransferKept (s t : State) : Prop where
  buffer : t.mem.fb = s.mem.fb
  log : t.txLog = s.txLog
  frame : t.tBusy = true → t.tFrame = s.tFrame

/-- From `s`, where the transport was idle, to `t` one transfer was started, of the bytes the buffer then has. -/
structure TransferStarted (s t : State) : Prop where
  wasIdle : s.tBusy = false
  busy : t.tBusy = true
  frame : t.tFrame = some (fbBytes t)
  log : t.txLog = s.txLog ++ [(s.now, fbBytes t)]

/-- Of the operations only the tick that sends starts a transfer, and only it writes the buffer. -/
theorem Effect.transfer_kept_or_started (h : Effect s i t) : TransferKept s t ∨ TransferStarted s t := by
  cases h with
  | raised | nothing | answered | waits | broughtUp => exact .inl ⟨rfl, rfl, fun _ => rfl⟩
  | wrote _ start data =>
    exact .inl ⟨Memory.cells_writeRun_ne s.mem .ch .fb start data (by decide), rfl, fun _ => rfl⟩
  | sentNew _ hb _ => exact .inr ⟨hb, rfl, rfl, rfl⟩
  | sentOld _ hb _ => exact .inr ⟨hb, rfl, rfl, rfl⟩

/-- Beside the operations only ResetFinish writes the buffer, and it waits for an idle transport (R105). -/
theorem Move.transfer_kept_started_or_idle (h : Move s t) :
    TransferKept s t ∨ TransferStarted s t ∨ (s.tBusy = false ∧ t.txLog = s.txLog) := by
  cases h with
  | clock | hold | badWord => exact .inl ⟨rfl, rfl, fun _ => rfl⟩
  | complete => rw [transportComplete_eq]; exact .inl ⟨rfl, rfl, fun hb => by cases hb⟩
  | finish _ _ hb => exact .inr (.inr ⟨hb, rfl⟩)
  | operation c rest i t _ _ _ _ he =>
    rcases he.transfer_kept_or_started with ⟨hbuf, hlog, hframe⟩ | ⟨hidle, hbusy, hframe, hlog⟩
    · exact .inl ⟨hbuf, hlog, hframe⟩
    · exact .inr (.inl ⟨hidle, hbusy, hframe, hlog⟩)

/-! ### What is refused (R65, R121) -/

theorem whileRunning_refused {k : Result} (h : whileRunning s k = .refused r) : k = .refused r := by
  unfold whileRunning at h
  split at h
  · cases h
  · exact h

/-- The precondition of R80 raises, and refuses nothing. -/
theorem whenReady_refused {k : Result} (h : whenReady i s k = .refused r) : k = .refused r := by
  have h := whileRunning_refused h
  split at h
  · cases h
  · cases h
  · exact h

/-- An operation is refused for its byte list only: a tick asks for a transfer after it found the transport idle. -/
theorem exec_refused (h : exec i s = .refused r) : r = .dataLength i.word := by
  cases i with
  | initializeCore =>
    have h := whileRunning_refused h
    split at h <;> cases h
  | reset => cases whenReady_refused h
  | serviceTick =>
    have h := whenReady_refused h
    split at h
    case isTrue => cases h
    case isFalse hb =>
      have hb : (encodeIfDirty s).tBusy = false := (encodeIfDirty_tBusy s).trans (Bool.eq_false_iff.mpr hb)
      rw [← encodeIfDirty_now, transmitIfOwed_of_idle _ hb] at h
      cases h
  | setChannel => cases whenReady_refused h
  | setChannels start length data =>
    change execSetChannels start length data s = _ at h
    unfold execSetChannels at h
    split at h
    · cases whenReady_refused h
    · cases h; rfl
  | getChannel =>
    have h := whenReady_refused h
    split at h <;> cases h

theorem hostTurn_refused {c : Command} (h : hostTurn c s = .refused r) : ∃ w, r = .dataLength w := by
  have h := whileRunning_refused h
  split at h
  · cases h
  · cases h
  · cases h; exact ⟨_, rfl⟩
  · exact ⟨_, exec_refused h⟩

theorem coreTurn_ne_refused : coreTurn s ≠ .refused r := fun h => by
  have h := whileRunning_refused h
  split at h <;> cases h

/-- A step is refused only for the byte list of a command. -/
theorem step_refused (h : step s = .refused r) : ∃ w, r = .dataLength w := by
  unfold step takeTurn at h
  split at h
  · exact absurd h coreTurn_ne_refused
  · exact hostTurn_refused h
  · exact absurd h coreTurn_ne_refused
  · cases h
  · cases h

/-- Settles O32: of a step that keeps the transfer, starts one from an idle transport or finds the transport idle, only
the first can start busy, and only the second logs; and no refusal is the transport's. -/
theorem busyTransportIsLeftAlone : Obligations.BusyTransportIsLeftAlone := by
  refine ⟨fun s t hb hstep => ?_, fun s t hstep hne => ?_, fun s h => ?_, fun i s h => ?_⟩
  · rcases (step_move s t hstep).transfer_kept_started_or_idle with hkept | hstart | ⟨hidle, -⟩
    · exact ⟨hkept.buffer, hkept.log, hkept.frame⟩
    · exact absurd (hb.symm.trans hstart.wasIdle) (by decide)
    · exact absurd (hb.symm.trans hidle) (by decide)
  · rcases (step_move s t hstep).transfer_kept_started_or_idle with hkept | hstart | ⟨-, hlog⟩
    · exact absurd hkept.log hne
    · exact ⟨hstart.wasIdle, hstart.busy, hstart.frame, hstart.log⟩
    · exact absurd hlog hne
  · obtain ⟨w, hw⟩ := step_refused h
    cases hw
  · cases exec_refused h

/-! ### Writes while the transport is busy (R101) -/

/-- What a run of writes and ticks from `s` keeps while the transport is busy: the core stays ready and framed, and
buffer and log are those of `s`. -/
structure BusyKept (s t : State) : Prop where
  ready : t.Ready
  busy : t.tBusy = true
  wf : t.mem.wf
  hwm_le : t.hwm.toNat ≤ 512
  framed : Framed t
  buffer : t.mem.fb = s.mem.fb
  log : t.txLog = s.txLog

/-- A write reaches the Channel Table, the mark and `dirty` only, whether it is accepted or dropped. -/
theorem BusyKept.after_write (h : BusyKept s t) (start : Nat) (data : List Byte) :
    BusyKept s (writeChannels start data.length data t) := by
  by_cases hd : start + data.length ≤ 512
  · rw [writeChannels_of_accepted hd]
    exact ⟨h.ready, h.busy, Memory.wf_writeRun t.mem .ch start data h.wf,
      (raiseHwm_toNat h.hwm_le hd).trans_le (max_le h.hwm_le hd), framed_written h.framed h.wf h.hwm_le hd,
      (Memory.cells_writeRun_ne t.mem .ch .fb start data (by decide)).trans h.buffer, h.log⟩
  · rwa [writeChannels_of_rejected data (Nat.not_le.mp hd)]

theorem BusyRun.kept (h : BusyRun s t) (hs : BusyKept s s) : BusyKept s t := by
  induction h with
  | done => exact hs
  | writeRun t u start length data _ hexec ih =>
    obtain ⟨hd, -⟩ := exec_setChannels_next hexec
    rw [exec_setChannels_of_ready ih.ready start hd, ← hd] at hexec
    cases hexec
    exact ih.after_write start.toNat data
  | writeOne t u index value _ hexec ih =>
    rw [exec_setChannel_of_ready ih.ready] at hexec
    cases hexec
    exact ih.after_write index.toNat [value]
  | tick t u _ hexec ih =>
    rw [exec_serviceTick_of_busy ih.ready ih.busy] at hexec
    cases hexec
    exact ih
  | clock t now _ ih =>
    exact ⟨ih.ready, ih.busy, ih.wf, ih.hwm_le, ih.framed.of_untouched rfl rfl rfl rfl rfl, ih.buffer, ih.log⟩

theorem transportComplete_of_busy (hb : s.tBusy = true) :
    transportComplete s = { s with tBusy := false, tFrame := none } :=
  if_pos hb

theorem fbBytes_eq_of_fb_eq (h : t.mem.fb = s.mem.fb) : fbBytes t = fbBytes s :=
  Memory.bytes_congr fun a _ => by rw [Memory.read_fb, Memory.read_fb, h]

/-- The tick of a dirty, framed core with an idle transport sends the frame of the table it found. -/
theorem dirty_tick_sends_tableFrame (hr : s.Ready) (hf : Framed s) (hm : s.mem.wf) (hhwm : s.hwm.toNat ≤ 512)
    (hb : s.tBusy = false) (hd : s.dirty = true) :
    ∃ u, exec .serviceTick s = .next u ∧ u.txLog = s.txLog ++ [(s.now, tableFrame s)] ∧
      u.tFrame = some (tableFrame s) ∧ fbBytes u = tableFrame s ∧ u.dirty = false ∧ u.tBusy = true := by
  have htick := exec_serviceTick_of_dirty hr hb hd
  have hsent := fbBytes_of_idle_tick hr hf hm hhwm hb htick
  have hframe : fbBytes (encodeIfDirty s) = tableFrame s := hsent
  refine ⟨_, htick, ?_, congrArg some hframe, hframe, encodeIfDirty_dirty s, rfl⟩
  rw [sent, encodeIfDirty_txLog, encodeIfDirty_now, hframe]

/-- Settles O33: the run keeps buffer and log, and the first idle tick encodes and sends the table as it stands. -/
theorem writesWhileBusyGoOutInOneFrame : Obligations.WritesWhileBusyGoOutInOneFrame := by
  intro s t hr hi hf hb hrun
  have hkept := hrun.kept ⟨hr, hb, hi.wf, hi.hwm_le hr.1, hf, rfl, rfl⟩
  refine ⟨⟨fbBytes_eq_of_fb_eq hkept.buffer, hkept.log⟩, fun hd => ?_⟩
  rw [← hkept.log, transportComplete_of_busy hkept.busy]
  exact dirty_tick_sends_tableFrame hkept.ready (hkept.framed.of_untouched rfl rfl rfl rfl rfl) hkept.wf hkept.hwm_le
    rfl hd

end Sys2Proof.Machine
end

section
/-! PROOFS. A command that decodes to an operation is the one that spells it (R59 to R66), so a fault records the word
the host issued (R109). -/

namespace Sys2Proof

/-- Words with the same field have the same bits in it. -/
theorem getLsbD_eq_of_field {w v : Word} {start len j : Nat} (h : w.extractLsb' start len = v.extractLsb' start len)
    (hge : start ≤ j) (hlt : j < start + len) : w.getLsbD j = v.getLsbD j := by
  have hbit := congrArg (·.getLsbD (j - start)) h
  simpa [show j - start < len by omega, show start + (j - start) = j by omega] using hbit

/-- A word is what `OP`, bits 27:16 and the two parts of its low half say, wherever the low half is cut. -/
theorem word_eq_of_fields {w v : Word} (lo : Nat) (hop : opField w = opField v) (hidx : idxField w = idxField v)
    (hmid : w.extractLsb' lo (16 - lo) = v.extractLsb' lo (16 - lo)) (hlow : w.extractLsb' 0 lo = v.extractLsb' 0 lo) :
    w = v := by
  refine BitVec.eq_of_getLsbD_eq fun j hj => ?_
  rcases Nat.lt_or_ge j lo with hlo | hlo
  · exact getLsbD_eq_of_field hlow (Nat.zero_le j) (by omega)
  rcases Nat.lt_or_ge j 16 with h16 | h16
  · exact getLsbD_eq_of_field hmid hlo (by omega)
  rcases Nat.lt_or_ge j 28 with h28 | h28
  · exact getLsbD_eq_of_field hidx h16 h28
  · exact getLsbD_eq_of_field hop h28 hj

/-- A word of format N is its `OP` and 28 bits that are 0 (R60). -/
theorem formatN_of_fields {w : Word} {op : BitVec 4} (hop : opField w = op) (hz : w.extractLsb' 0 28 = 0#28) :
    formatN op = w := by
  have hmask : w &&& rowMask 0 28 = place 28 op := (and_rowMask_eq_iff w op 0 28 (by decide)).mpr ⟨hop, hz⟩
  have hall : rowMask 0 28 = BitVec.allOnes 32 := by decide
  rw [formatN, ← hmask, hall, BitVec.and_allOnes]

theorem encode_of_spells {c : Command} {i : Instr} (h : Spells c i) : encode i = c := by
  obtain ⟨w, bytes⟩ := c
  cases i with
  | initializeCore | reset | serviceTick =>
    obtain ⟨hop, hz, rfl⟩ := h
    rw [encode, formatN_of_fields hop hz]
  | setChannel index value =>
    obtain ⟨hop, hz, rfl, hidx, hval⟩ := h
    have hw : formatW 0x4#4 index value = w := word_eq_of_fields 8 ((opField_formatW _ _ _).trans hop.symm)
      ((idxField_formatW _ _ _).trans hidx.symm) ((reserved_formatW _ _ _).trans hz.symm)
      ((valField_formatW _ _ _).trans hval.symm)
    rw [encode, hw]
  | setChannels start length data =>
    obtain ⟨hop, hz, -, hidx, hlen, rfl⟩ := h
    have hw : formatS 0x5#4 start length = w := word_eq_of_fields 12 ((opField_formatS _ _ _).trans hop.symm)
      ((idxField_formatS _ _ _).trans hidx.symm) ((reserved_formatS _ _ _).trans hz.symm)
      ((lenField_formatS _ _ _).trans hlen.symm)
    rw [encode, hw]
  | getChannel index =>
    obtain ⟨hop, hz, rfl, hidx⟩ := h
    have hw : formatR 0x6#4 index = w := word_eq_of_fields 0 ((opField_formatR _ _).trans hop.symm)
      ((idxField_formatR _ _).trans hidx.symm) ((reserved_formatR _ _).trans hz.symm)
      (BitVec.eq_of_zero_length rfl)
    rw [encode, hw]

theorem wellFormed_of_spells {c : Command} {i : Instr} (h : Spells c i) : i.wellFormed = true := by
  cases i with
  | setChannels =>
    obtain ⟨-, -, hlen, -, rfl, rfl⟩ := h
    exact beq_iff_eq.mpr hlen
  | initializeCore | reset | serviceTick | setChannel | getChannel => rfl

end Sys2Proof
end

section
/-! PROOFS. Faults: what a raised fault leaves and stops (R110, O10) and the order of the preconditions (R112, O11). -/

namespace Sys2Proof.Machine

variable {s t : State} {i : Instr} {c : Command} {rest : List Turn}

/-! ### A recorded fault stops the core (R110) -/

theorem whileRunning_of_fault {f : FaultRecord} (hf : s.fault = some f) (k : Result) :
    whileRunning s k = .fault (.coreStopped f.code f.info) := by
  rw [whileRunning, hf]

theorem whileRunning_of_none (hf : s.fault = none) (k : Result) : whileRunning s k = k := by
  rw [whileRunning, hf]

/-- Every well-formed operation but `initialize` is a body under the precondition of R80. -/
theorem exec_eq_whenReady (hw : i.wellFormed = true) (hi : i ≠ .initializeCore) :
    ∃ k, exec i s = whenReady i s k := by
  cases i with
  | initializeCore => exact absurd rfl hi
  | setChannels => exact ⟨_, if_pos hw⟩
  | reset | serviceTick | setChannel | getChannel => exact ⟨_, rfl⟩

/-- Every well-formed operation is a core step, enabled only while no fault is recorded. -/
theorem exec_of_fault {f : FaultRecord} (hw : i.wellFormed = true) (hf : s.fault = some f) :
    exec i s = .fault (.coreStopped f.code f.info) := by
  by_cases hi : i = .initializeCore
  · subst hi
    exact whileRunning_of_fault hf _
  · obtain ⟨k, hexec⟩ := exec_eq_whenReady (s := s) hw hi
    exact hexec.trans (whileRunning_of_fault hf _)

theorem step_of_core (ht : s.turns = .core :: rest) : step s = coreTurn { s with turns := rest } := by
  rw [step, takeTurn, ht]

theorem step_of_transport (ht : s.turns = .transport :: rest) :
    step s = .next (transportComplete { s with turns := rest }) := by
  rw [step, takeTurn, ht]; rfl

/-! ### What a step does to the record (R110) -/

/-- An operation leaves the record, or raises and changes nothing else. -/
theorem Effect.fault_kept_or_raised (h : Effect s i t) : t.fault = s.fault ∨ t = { s with fault := t.fault } := by
  cases h with
  | raised => exact .inr rfl
  | nothing | wrote | answered | sentNew | sentOld | waits | broughtUp => exact .inl rfl

/-- Every step leaves the record, or raises from a state with none and changes nothing else but the schedule. -/
theorem Move.fault_kept_or_raised (h : Move s t) :
    t.fault = s.fault ∨ (s.fault = none ∧ t = { afterTurn s with fault := t.fault }) := by
  cases h with
  | clock | hold | finish => exact .inl rfl
  | complete => rw [transportComplete_eq]; exact .inl rfl
  | badWord _ _ _ _ hf => exact .inr ⟨hf, rfl⟩
  | operation _ _ _ _ _ hf _ _ he => exact he.fault_kept_or_raised.imp_right fun ht => ⟨hf, ht⟩

/-- Settles O10: a step that changes the record raises, and every core step asks first that none is recorded. -/
theorem faultStopsTheCoreForGood : Obligations.FaultStopsTheCoreForGood := by
  refine ⟨fun s t hf hne hstep => ?_, fun s f hf => ⟨fun c rest ht => ?_, fun rest ht => ?_,
    fun i hw => exec_of_fault hw hf, fun rest ht hb => ?_, fun t hstep => ?_⟩⟩
  · rcases (step_move s t hstep).fault_kept_or_raised with hkept | ⟨-, hraised⟩
    · exact absurd (hkept.trans hf) hne
    · exact hraised
  · rw [step_of_host ht]; exact whileRunning_of_fault hf _
  · rw [step_of_core ht]; exact whileRunning_of_fault hf _
  · rw [step_of_transport ht]
    exact congrArg _ (transportComplete_of_busy (s := { s with turns := rest }) hb)
  · rcases (step_move s t hstep).fault_kept_or_raised with hkept | ⟨hnone, -⟩
    · exact hkept.trans hf
    · cases hf.symm.trans hnone

/-! ### The order of the preconditions (R112) -/

theorem exec_initializeCore_of_resetWait (hf : s.fault = none) (hl : s.life = .resetWait) :
    exec .initializeCore s = raise .callDuringReset Instr.initializeCore.word s := by
  rw [exec, execInitializeCore, whileRunning_of_none hf, hl]

theorem exec_initializeCore_of_ready (hr : s.Ready) :
    exec .initializeCore s = raise .doubleInitialize Instr.initializeCore.word s := by
  rw [exec, execInitializeCore, whileRunning_of_none hr.2, hr.1]

/-- Every operation in RESET_WAIT, `initialize` among them. -/
theorem exec_of_resetWait (hw : i.wellFormed = true) (hf : s.fault = none) (hl : s.life = .resetWait) :
    exec i s = raise .callDuringReset i.word s := by
  by_cases hi : i = .initializeCore
  · subst hi
    exact exec_initializeCore_of_resetWait hf hl
  · obtain ⟨k, hexec⟩ := exec_eq_whenReady (s := s) hw hi
    rw [hexec, whenReady, whileRunning_of_none hf, hl]

/-- Every operation but `initialize` in UNINIT, whatever its operands. -/
theorem exec_of_uninit (hw : i.wellFormed = true) (hi : i ≠ .initializeCore) (hf : s.fault = none)
    (hl : s.life = .uninit) : exec i s = raise .uninitializedUse i.word s := by
  obtain ⟨k, hexec⟩ := exec_eq_whenReady (s := s) hw hi
  rw [hexec, whenReady, whileRunning_of_none hf, hl]

/-- A read past index 511 in a ready core (R83). -/
theorem exec_getChannel_of_out_of_range (hr : s.Ready) {index : Field} (hi : 512 ≤ index.toNat) :
    exec (.getChannel index) s = raise .readOutOfRange (indexInfo index) s :=
  (whenReady_of_ready _ _ _ hr).trans (if_neg fun h => Nat.not_lt.mpr hi (of_decide_eq_true h))

/-- While no fault is recorded, a command that decodes to an operation is executed as that operation. -/
theorem hostTurn_of_op (hf : s.fault = none) (hd : decode c = .op i) : hostTurn c s = exec i s := by
  rw [hostTurn, whileRunning_of_none hf, hd]

/-- Settles O11: the decoder speaks before exec, exec asks for the lifecycle state before the index, and the word of the
decoded operation is the one issued. -/
theorem firstFaultInOrderIsRecorded : Obligations.FirstFaultInOrderIsRecorded := by
  intro s c rest hf ht
  have hf : ({ s with turns := rest } : State).fault = none := hf
  have hspells {i : Instr} (hd : decode c = .op i) : Spells c i := (decode_eq_op_iff c i).mp hd
  have hword {i : Instr} (hd : decode c = .op i) : i.word = c.word := congrArg _ (encode_of_spells (hspells hd))
  rw [step_of_host ht]
  refine ⟨fun hd => hostTurn_of_illegalCommand hf hd, fun hd => hostTurn_of_reservedBits hf hd, fun i hd hl => ?_,
    fun i hd hi hl => ?_, fun hd hl => ?_, fun index hd hl hi => ?_⟩
  · rw [hostTurn_of_op hf hd, exec_of_resetWait (wellFormed_of_spells (hspells hd)) hf hl, hword hd, raise]
  · rw [hostTurn_of_op hf hd, exec_of_uninit (wellFormed_of_spells (hspells hd)) hi hf hl, hword hd, raise]
  · rw [hostTurn_of_op hf hd, exec_initializeCore_of_ready (s := { s with turns := rest }) ⟨hl, hf⟩,
      hword hd, raise]
  · rw [hostTurn_of_op hf hd, exec_getChannel_of_out_of_range (s := { s with turns := rest }) ⟨hl, hf⟩ hi,
      raise, indexInfo, BitVec.ofNat_toNat]

end Sys2Proof.Machine
end

section
/-! PROOFS. Who uses the transport: `tBusy` rises only at a ready core's tick, and only `initialize` configures or
routes (R123, O42). -/

namespace Sys2Proof.Machine

variable {s t : State} {i : Instr}

/-- Of the operations only the tick that sends makes the transport busy. -/
theorem Effect.tick_of_busy_raised (h : Effect s i t) (hs : s.tBusy = false) (ht : t.tBusy = true) :
    s.Ready ∧ i = .serviceTick := by
  cases h with
  | sentNew hr | sentOld hr => exact ⟨hr, rfl⟩
  | raised | nothing | wrote | answered | waits | broughtUp => exact absurd (hs.symm.trans ht) (by decide)

/-- Of the operations only the `initialize` that brings the core up reaches the transport's set-up. -/
theorem Effect.setUp_kept_or_initialize (h : Effect s i t) :
    (t.tCfg = s.tCfg ∧ t.tPin = s.tPin) ∨ (s.life = .uninit ∧ i = .initializeCore) := by
  cases h with
  | broughtUp hl => exact .inr ⟨hl, rfl⟩
  | raised | nothing | wrote | answered | sentNew | sentOld | waits => exact .inl ⟨rfl, rfl⟩

/-- A step that makes the transport busy is a ready core's tick: the transport's own step only ends a transfer. -/
theorem Move.tick_of_busy_raised (h : Move s t) (hs : s.tBusy = false) (ht : t.tBusy = true) :
    s.Ready ∧ ∃ c rest, s.turns = .host c :: rest ∧ decode c = .op .serviceTick := by
  cases h with
  | clock | hold | finish | badWord => exact absurd (hs.symm.trans ht) (by decide)
  | complete => rw [transportComplete_eq] at ht; cases ht
  | operation c rest _ _ hturns _ hd _ he =>
    obtain ⟨hr, rfl⟩ := he.tick_of_busy_raised hs ht
    exact ⟨hr, c, rest, hturns, hd⟩

theorem Move.setUp_kept_or_initialize (h : Move s t) :
    (t.tCfg = s.tCfg ∧ t.tPin = s.tPin) ∨
      (s.life = .uninit ∧ ∃ c rest, s.turns = .host c :: rest ∧ decode c = .op .initializeCore) := by
  cases h with
  | clock | hold | finish | badWord => exact .inl ⟨rfl, rfl⟩
  | complete => rw [transportComplete_eq]; exact .inl ⟨rfl, rfl⟩
  | operation c rest _ _ hturns _ hd _ he =>
    rcases he.setUp_kept_or_initialize with hkept | ⟨hl, rfl⟩
    · exact .inl hkept
    · exact .inr ⟨hl, c, rest, hturns, hd⟩

/-- Settles O42: by the kind of move, `tBusy` rises at a sending tick and the set-up changes at `initialize` only. -/
theorem onlyTheCoreUsesTheTransport : Obligations.OnlyTheCoreUsesTheTransport := by
  intro s t hstep
  have hmove := step_move s t hstep
  refine ⟨fun hs ht => hmove.tick_of_busy_raised hs ht, fun hne => ?_⟩
  rcases hmove.setUp_kept_or_initialize with ⟨hcfg, hpin⟩ | hinit
  · exact hne.elim (absurd hcfg) (absurd hpin)
  · exact hinit

end Sys2Proof.Machine
end

section
/-! PROOFS. Commands and operations: decoding gives back what was encoded and nothing else (O4, O5), the operands are
the fields of the formats (O3), and what the host's turn does with a command (O1, O7, O8). -/

namespace Sys2Proof

/-- The command written from the formats spells its operation (R60 to R66). -/
theorem spells_encode {i : Instr} (h : i.wellFormed = true) : Spells (encode i) i := by
  cases i with
  | initializeCore | reset | serviceTick => exact ⟨opField_formatN _, reserved_formatN _, rfl⟩
  | setChannel index value =>
    exact ⟨opField_formatW _ _ _, reserved_formatW _ _ _, rfl, idxField_formatW _ _ _, valField_formatW _ _ _⟩
  | setChannels start length data =>
    have hfits : data.length = length.toNat := beq_iff_eq.mp h
    have hlen : lenField (formatS 0x5#4 start length) = length := lenField_formatS _ _ _
    exact ⟨opField_formatS _ _ _, reserved_formatS _ _ _, hfits.trans (congrArg BitVec.toNat hlen.symm),
      idxField_formatS _ _ _, hlen, rfl⟩
  | getChannel index => exact ⟨opField_formatR _ _, reserved_formatR _ _, rfl, idxField_formatR _ _⟩

/-! ### The operand fields as numbers (R64) -/

theorem idxField_toNat (w : Word) : (idxField w).toNat = w.toNat / 2 ^ 16 % 2 ^ 12 := by
  rw [idxField, BitVec.extractLsb'_toNat, Nat.shiftRight_eq_div_pow]

theorem lenField_toNat (w : Word) : (lenField w).toNat = w.toNat % 2 ^ 12 := by
  rw [lenField, BitVec.extractLsb'_toNat, Nat.shiftRight_zero]

theorem valField_toNat (w : Word) : (valField w).toNat = w.toNat % 2 ^ 8 := by
  rw [valField, BitVec.extractLsb'_toNat, Nat.shiftRight_zero]

/-- A word of the `setChannels` row beside a byte list of another length than its `LEN` (R65). -/
theorem decode_of_other_length {w : Word} {data : List Byte} (hw : w &&& 0xF000F000#32 = 0x50000000#32)
    (hd : data.length ≠ w.toNat % 2 ^ 12) : decode ⟨w, data⟩ = .dataLength := by
  obtain ⟨hop, hz⟩ := (and_rowMask_eq_iff w 0x5#4 12 4 (by decide)).mp hw
  have hfits : Instr.dataFits (lenField w) data = false := beq_eq_false_iff_ne.mpr (by rwa [lenField_toNat])
  simp [decode, hop, hz, hfits, verdictOf]

end Sys2Proof

namespace Sys2Proof.Machine

/-- Settles O4: the encoding of an operation spells it, and the decoder answers what a command spells. -/
theorem decodeOfEncodeIsTheOperation : Obligations.DecodeOfEncodeIsTheOperation :=
  fun i hw => (decode_eq_op_iff (encode i) i).mpr (spells_encode hw)

/-- Settles O5: a command the decoder answers spells the operation, and its format leaves no bit free. -/
theorem eachOperationHasOneCommand : Obligations.EachOperationHasOneCommand := by
  intro c i hd
  have hspells := (decode_eq_op_iff c i).mp hd
  exact ⟨encode_of_spells hspells, wellFormed_of_spells hspells⟩

/-- Settles O3: a command that decodes to an operation spells it, with the operands in the fields of its format. -/
theorem operandsAreTheFormatsFields : Obligations.OperandsAreTheFormatsFields := by
  intro w data
  simp only [decode_eq_op_iff]
  refine ⟨fun index value h => ?_, fun start length bytes h => ?_, fun index h => ?_⟩
  · obtain ⟨-, -, hnone, rfl, rfl⟩ := h
    exact ⟨idxField_toNat w, valField_toNat w, hnone⟩
  · obtain ⟨-, -, hlen, rfl, rfl, hbytes⟩ := h
    exact ⟨idxField_toNat w, lenField_toNat w, hbytes.symm, hlen.trans (lenField_toNat w)⟩
  · obtain ⟨-, -, hnone, rfl⟩ := h
    exact ⟨idxField_toNat w, hnone⟩

/-- Settles O1: the decoder evaluated at the twelve words. -/
theorem specWordsDecode : Obligations.SpecWordsDecode := by
  unfold Obligations.SpecWordsDecode
  decide

/-- Settles O7: the decoder and the meaning of `setChannels` both compare the byte list with `LEN`. -/
theorem dataOfAnotherLengthIsRefused : Obligations.DataOfAnotherLengthIsRefused := by
  refine ⟨fun s w data rest hf ht hw hd => ?_, fun s start length data hd => ?_⟩
  · have hf : ({ s with turns := rest } : State).fault = none := hf
    rw [step_of_host ht, hostTurn, whileRunning_of_none hf, decode_of_other_length hw hd]
  · exact if_neg fun hfits => hd (beq_iff_eq.mp hfits)

/-- Settles O8: the turn is the host's, and the decoder answers the operation. -/
theorem stepRunsTheIssuedOperation : Obligations.StepRunsTheIssuedOperation := by
  intro s c rest i hf ht hd
  exact (step_of_host ht).trans (hostTurn_of_op (s := { s with turns := rest }) hf hd)

end Sys2Proof.Machine
end

section
/-! PROOFS. The lifecycle and the other agents' turns: what the turns of the clock, the transport and an idle core do
(O9), which moves of `life` there are (O36, O37, O41), the boot (O40), and that no step changes a parameter (O47). -/

namespace Sys2Proof.Machine

variable {s t : State} {i : Instr} {rest : List Turn}

/-! ### Turns with nothing to decode (R12) -/

theorem step_of_clock {now : Time} (ht : s.turns = .clock now :: rest) :
    step s = .next { s with turns := rest, now := now } := by
  rw [step, takeTurn, ht]; rfl

theorem transportComplete_of_idle (hb : s.tBusy = false) : transportComplete s = s :=
  if_neg (Bool.eq_false_iff.mp hb)

/-- Outside RESET_WAIT the core has no step of its own. -/
theorem coreTurn_of_not_waiting (hf : s.fault = none) (hl : s.life ≠ .resetWait) : coreTurn s = .next s := by
  rw [coreTurn, whileRunning_of_none hf]
  cases hlife : s.life with
  | resetWait => exact absurd hlife hl
  | uninit | ready => rfl

theorem step_of_no_turn (ht : s.turns = []) : step s = coreTurn s := by
  rw [step, takeTurn, ht]

/-- Settles O9: each turn leaves the schedule and is its agent's action. -/
theorem stepTakesTheOtherTurns : Obligations.StepTakesTheOtherTurns := by
  refine fun s rest => ⟨fun t ht => step_of_clock ht, fun ht hb => ?_, fun ht hb => ?_, fun ht hf hl => ?_,
    fun ht => ?_⟩
  · rw [step_of_transport ht]
    exact congrArg _ (transportComplete_of_busy (s := { s with turns := rest }) hb)
  · rw [step_of_transport ht]
    exact congrArg _ (transportComplete_of_idle (s := { s with turns := rest }) hb)
  · rw [step_of_core ht]
    exact coreTurn_of_not_waiting (s := { s with turns := rest }) hf hl
  · rw [step_of_no_turn ht, step_of_core (s := { s with turns := [.core] }) rfl, ← ht]

/-! ### The moves of `life` (R116) -/

/-- Settles O36: a ready core passes the precondition of R80, and the body enters the wait. -/
theorem resetStartsTheWait : Obligations.ResetStartsTheWait :=
  fun s hr => whenReady_of_ready .reset s _ hr

/-- Settles O37: `initialize` runs its body in UNINIT. -/
theorem initConfiguresRoutesAndWaits : Obligations.InitConfiguresRoutesAndWaits := by
  intro s hl hf
  rw [exec, execInitializeCore, whileRunning_of_none hf, hl]
  rfl

/-- Of the operations only the `reset` of a ready core and the `initialize` of UNINIT move `life`. -/
theorem Effect.life_kept_or_waits (h : Effect s i t) : t.life = s.life ∨
    (t.life = .resetWait ∧ (s.life = .uninit ∧ i = .initializeCore ∨ s.life = .ready ∧ i = .reset)) := by
  cases h with
  | waits hr => exact .inr ⟨rfl, .inr ⟨hr.1, rfl⟩⟩
  | broughtUp hl => exact .inr ⟨rfl, .inl ⟨hl, rfl⟩⟩
  | raised | nothing | wrote | answered | sentNew | sentOld => exact .inl rfl

@[simp] theorem transportComplete_life (s : State) : (transportComplete s).life = s.life := by
  rw [transportComplete_eq]

/-- Settles O41: beside the operations only ResetFinish moves `life`. -/
theorem lifecycleMovesOnlyAsListed : Obligations.LifecycleMovesOnlyAsListed := by
  intro s t hstep hne
  cases step_move s t hstep with
  | clock | hold | badWord => exact absurd rfl hne
  | complete => exact absurd (transportComplete_life _) hne
  | finish _ hl hb => exact .inr (.inr ⟨hl, rfl, hb, rfl⟩)
  | operation c rest i t ht _ hd _ he =>
    rcases he.life_kept_or_waits with hkept | ⟨hwait, ⟨hl, rfl⟩ | ⟨hl, rfl⟩⟩
    · exact absurd hkept hne
    · exact .inl ⟨hl, hwait, c, rest, ht, hd⟩
    · exact .inr (.inl ⟨hl, hwait, c, rest, ht, hd⟩)

/-! ### Boot (R129) -/

/-- The two turns of the boot: the host issues `initialize`, then the core takes its own step. -/
def bootState : State := { State.reset with turns := [.host ⟨0x10000000#32, []⟩, .core] }

/-- The state after `initialize`, with the core's turn still to come. -/
def initializedState : State :=
  { State.reset with
    turns := [.core], life := .resetWait, tPin := true,
    tCfg := some ⟨250000, .lsbFirst, standardConfig.transportMode⟩ }

theorem step_bootState : step bootState = .next initializedState :=
  (stepRunsTheIssuedOperation bootState _ _ .initializeCore rfl rfl (by decide)).trans
    (initConfiguresRoutesAndWaits { bootState with turns := [.core] } rfl rfl)

theorem step_initializedState : step initializedState = .next (resetFinish { initializedState with turns := [] }) :=
  (step_of_core_waiting rfl rfl rfl).trans (congrArg _ (resetPoll_of_idle rfl))

/-- Settles O40: `initialize` enters the wait, and the transport being idle the core's step is ResetFinish. -/
theorem bootReachesReady : Obligations.BootReachesReady := by
  have hm : ({ initializedState with turns := [] } : State).mem.wf := by decide
  have hrun : core.run 2 bootState = .next (resetFinish { initializedState with turns := [] }) := by
    simp only [Host.Core.run, core, step_bootState, step_initializedState]
  exact ⟨_, hrun, rfl, rfl, rfl, rfl, rfl, rfl, rfl, rfl, rfl, rfl, chanAt_resetFinish _ hm,
    (framed_resetFinish hm).clean rfl rfl⟩

/-! ### The parameters (R31, R32) -/

theorem Effect.cfg_eq (h : Effect s i t) : t.cfg = s.cfg := by
  cases h <;> rfl

theorem Move.cfg_eq (h : Move s t) : t.cfg = s.cfg := by
  cases h with
  | clock | hold | finish | badWord => rfl
  | complete => rw [transportComplete_eq]; rfl
  | operation _ _ _ _ _ _ _ _ he => exact he.cfg_eq

/-- Settles O47: no move writes the parameters, and the ROM is read from them. -/
theorem parametersNeverChange : Obligations.ParametersNeverChange := by
  intro s t hstep
  have hcfg := (step_move s t hstep).cfg_eq
  exact ⟨hcfg, fun a => by rw [hcfg]⟩

end Sys2Proof.Machine
end

section
/-! PROOFS. The invariant of every reachable state: it holds at power-on (O43), and every step keeps it (O44). -/

namespace Sys2Proof.Machine

variable {s t : State} {i : Instr}

/-! ### What the invariant says of the transport (R118) -/

theorem transferInFlight_of_idle (hf : s.tFrame = none) (hb : s.tBusy = false) : TransferInFlight s := by
  rwa [TransferInFlight, hf]

theorem Inv.tFrame_of_idle (h : Inv s) (hb : s.tBusy = false) : s.tFrame = none := by
  have htransfer := h.transfer
  unfold TransferInFlight at htransfer
  split at htransfer
  · assumption
  · exact absurd (hb.symm.trans htransfer.1) (by decide)

theorem Inv.tFrame_of_busy (h : Inv s) (hb : s.tBusy = true) : s.tFrame = some (fbBytes s) := by
  have htransfer := h.transfer
  unfold TransferInFlight at htransfer
  split at htransfer
  · exact absurd (hb.symm.trans htransfer) (by decide)
  · obtain ⟨-, hbuffer, -⟩ := htransfer
    rwa [← hbuffer]

/-- The frame in flight is still the buffer where the buffer is as it was. -/
theorem TransferInFlight.of_fb_eq (h : TransferInFlight s) (hfb : t.mem.fb = s.mem.fb) (hframe : t.tFrame = s.tFrame)
    (hbusy : t.tBusy = s.tBusy) (hlog : t.txLog = s.txLog) (hlast : t.lastTx = s.lastTx) : TransferInFlight t := by
  rwa [TransferInFlight, fbBytes_eq_of_fb_eq hfb, hframe, hbusy, hlog, hlast]

theorem setUp_iff_of_uninit (hl : s.life = .uninit) :
    SetUp s ↔ s.tCfg = none ∧ s.tPin = false ∧ s.tFrame = none ∧ s.txLog = [] := by
  rw [SetUp, if_pos hl]

/-- Past UNINIT the transport is configured and routed (R107). -/
theorem setUp_iff_of_past_uninit (hl : s.life ≠ .uninit) : SetUp s ↔
    s.tCfg = some ⟨transportBitClock, .lsbFirst, s.cfg.transportMode⟩ ∧ s.tPin = true := by
  rw [SetUp, if_neg hl]

/-- Past UNINIT the set-up depends on these elements only. -/
theorem SetUp.of_untouched (h : SetUp s) (hs : s.life ≠ .uninit) (ht : t.life ≠ .uninit) (hcfg : t.cfg = s.cfg)
    (hconfigured : t.tCfg = s.tCfg) (hrouted : t.tPin = s.tPin) : SetUp t := by
  rw [setUp_iff_of_past_uninit ht, hcfg, hconfigured, hrouted]
  exact (setUp_iff_of_past_uninit hs).mp h

/-! ### What each kind of change keeps -/

/-- A recorded fault touches no element the invariant speaks of. -/
theorem Inv.withFault (h : Inv s) (f : Option FaultRecord) : Inv { s with fault := f } :=
  ⟨h.wf, h.hwm_le, h.pending_clear, h.transfer, h.setUp, h.log_length⟩

/-- An accepted write leaves the buffer and raises the mark to 512 at most (R81). -/
theorem inv_written (h : Inv s) {start : Nat} {data : List Byte} (hd : start + data.length ≤ 512) :
    Inv (written s start data) where
  wf := Memory.wf_writeRun s.mem .ch start data h.wf
  hwm_le := fun hl => (raiseHwm_toNat (h.hwm_le hl) hd).trans_le (max_le (h.hwm_le hl) hd)
  pending_clear := h.pending_clear
  transfer := h.transfer.of_fb_eq (Memory.cells_writeRun_ne s.mem .ch .fb start data (by decide)) rfl rfl rfl rfl
  setUp := h.setUp
  log_length := h.log_length

/-- The buffer may be rewritten while no transfer is in flight (R97). -/
theorem inv_clearDirty_reencode (h : Inv s) (hb : s.tBusy = false) : Inv (clearDirty (reencode s)) where
  wf := wf_encodeUpTo _ _ h.wf
  hwm_le := h.hwm_le
  pending_clear := h.pending_clear
  transfer := transferInFlight_of_idle (h.tFrame_of_idle hb) hb
  setUp := h.setUp
  log_length := h.log_length

/-- A transfer a ready core starts is of the whole buffer, and is logged at `lastTx` (R97, R121). -/
theorem inv_sent (h : Inv s) (hl : s.life = .ready) : Inv (sent s) where
  wf := h.wf
  hwm_le := h.hwm_le
  pending_clear := fun _ => rfl
  transfer := ⟨rfl, rfl, List.getLast?_concat⟩
  setUp :=
    have hpast : s.life ≠ .uninit := by simp [hl]
    h.setUp.of_untouched hpast hpast rfl rfl rfl
  log_length := fun e he => by
    rcases List.mem_append.mp he with hold | hnew
    · exact h.log_length e hold
    · rw [List.mem_singleton.mp hnew, fbBytes_length]

/-- A core that waits owes nothing to the clauses on a ready core (R104). -/
theorem inv_of_waiting (hl : s.life = .resetWait) (hm : s.mem.wf) (htransfer : TransferInFlight s) (hset : SetUp s)
    (hlog : ∀ e ∈ s.txLog, e.2.length = frameBytes) : Inv s where
  wf := hm
  hwm_le := fun hr => absurd (hl.symm.trans hr) (by decide)
  pending_clear := fun hr => absurd (hl.symm.trans hr) (by decide)
  transfer := htransfer
  setUp := hset
  log_length := hlog

/-- Every operation keeps the invariant. -/
theorem Effect.keeps_inv (he : Effect s i t) (h : Inv s) : Inv t := by
  cases he with
  | raised => exact h.withFault _
  | nothing => exact h
  | wrote _ _ _ _ hd _ => exact inv_written h hd
  | answered => exact ⟨h.wf, h.hwm_le, h.pending_clear, h.transfer, h.setUp, h.log_length⟩
  | sentNew hr hb _ => exact inv_sent (inv_clearDirty_reencode h hb) hr.1
  | sentOld hr _ _ => exact inv_sent h hr.1
  | waits hr =>
    exact inv_of_waiting rfl h.wf h.transfer (h.setUp.of_untouched (by simp [hr.1]) (by simp) rfl rfl rfl) h.log_length
  | broughtUp => exact inv_of_waiting rfl h.wf h.transfer ⟨rfl, rfl⟩ h.log_length

/-- ResetFinish leaves the transport, which is idle, as it was (R106, R118). -/
theorem inv_resetFinish (h : Inv s) (hl : s.life = .resetWait) (hb : s.tBusy = false) : Inv (resetFinish s) where
  wf := wf_resetFinish s h.wf
  hwm_le := fun _ => Nat.zero_le _
  pending_clear := fun _ => rfl
  transfer := transferInFlight_of_idle (h.tFrame_of_idle hb) hb
  setUp := h.setUp.of_untouched (by simp [hl]) (by simp) rfl rfl rfl
  log_length := h.log_length

/-- The end of a transfer leaves none in flight (R122). -/
theorem inv_transportComplete (h : Inv s) : Inv (transportComplete s) := by
  cases hb : s.tBusy with
  | false => rwa [transportComplete_of_idle hb]
  | true =>
    rw [transportComplete_of_busy hb]
    refine ⟨h.wf, h.hwm_le, h.pending_clear, rfl, ?_, h.log_length⟩
    by_cases hl : s.life = .uninit
    · obtain ⟨hconfigured, hrouted, -, hlog⟩ := (setUp_iff_of_uninit hl).mp h.setUp
      exact (setUp_iff_of_uninit (s := { s with tBusy := false, tFrame := none }) hl).mpr
        ⟨hconfigured, hrouted, rfl, hlog⟩
    · exact h.setUp.of_untouched hl hl rfl rfl rfl

/-- Every step of every agent keeps the invariant. -/
theorem Move.keeps_inv (hmove : Move s t) (h : Inv s) : Inv t := by
  have h := inv_afterTurn h
  cases hmove with
  | clock => exact ⟨h.wf, h.hwm_le, h.pending_clear, h.transfer, h.setUp, h.log_length⟩
  | complete => exact inv_transportComplete h
  | hold => exact h
  | finish _ hl hb => exact inv_resetFinish h hl hb
  | badWord => exact h.withFault _
  | operation _ _ _ _ _ _ _ _ he => exact he.keeps_inv h

/-- Settles O44: the buffer is written only while no transfer is in flight, and each kind of move sets up what the
lifecycle state it enters asks for. -/
theorem everyStepKeepsTheInvariant : Obligations.EveryStepKeepsTheInvariant :=
  fun s t h hstep => (step_move s t hstep).keeps_inv h

/-- Settles O43: at power-on nothing is in flight or logged, and no core is ready. -/
theorem powerOnMeetsTheInvariants : Obligations.PowerOnMeetsTheInvariants := by
  have hinv : Inv State.reset :=
    { wf := by decide
      hwm_le := fun _ => Nat.zero_le _
      pending_clear := fun _ => rfl
      transfer := rfl
      setUp := ⟨rfl, rfl, rfl, rfl⟩
      log_length := fun e he => by cases he }
  exact ⟨rfl, rfl, rfl, rfl, rfl, rfl, rfl, hinv, (fun hr => by cases hr), fun e he => by cases he⟩

end Sys2Proof.Machine
end

section
/-! PROOFS. The channel operations: what an accepted write changes and leaves (O13, O16), what a read answers (O17),
that only writes and ResetFinish change the table (O20), and that no operation is refused or stuck (O12). -/

namespace Sys2Proof.Machine

variable {s t : State} {i : Instr}

/-! ### Accepted writes (R81, R82) -/

/-- A `setChannels` whose range fits the table is written. -/
theorem exec_setChannels_of_accepted (hr : s.Ready) {start length : Field} {data : List Byte}
    (hd : data.length = length.toNat) (hin : start.toNat + length.toNat ≤ 512) :
    exec (.setChannels start length data) s = .next (written s start.toNat data) := by
  rw [exec_setChannels_of_ready hr start hd, ← hd, writeChannels_of_accepted (by rwa [hd])]

/-- A `setChannel` of an index in 0..511 is written. -/
theorem exec_setChannel_of_accepted (hr : s.Ready) {index : Field} (value : Byte) (hi : index.toNat ≤ 511) :
    exec (.setChannel index value) s = .next (written s index.toNat [value]) :=
  (exec_setChannel_of_ready hr index value).trans
    (congrArg _ (writeChannels_of_accepted (data := [value]) (Nat.succ_le_succ hi)))

/-- Channels before the start of a write keep their values. -/
theorem chanAt_written_of_lt (hm : s.mem.wf) {start c : Nat} {data : List Byte} (hc : c < start) :
    chanAt (written s start data) c = chanAt s c :=
  (Memory.read_writeRun s.mem .ch .ch start c data hm).trans (if_neg (by omega))

/-- Settles O13: the run is written, and `written` writes its range of channels, the mark and `dirty`. -/
theorem acceptedRunIsWritten : Obligations.AcceptedRunIsWritten := by
  intro s start length data hr hm hd hin
  have hend : start.toNat + data.length ≤ 512 := by rwa [hd]
  refine ⟨_, exec_setChannels_of_accepted hr hd hin, fun k hk => ?_, fun c hc => ?_, fbAt_written hm _ _, ?_, rfl⟩
  · rw [chanAt_written_of_mem hm (by omega) (by omega) hend, Nat.add_sub_cancel_left]
  · rcases hc with hlt | hge
    · exact chanAt_written_of_lt hm hlt
    · exact chanAt_written_of_le hm (by rwa [hd])
  · rw [← hd]
    exact raiseHwm_toNat_of_le s.hwm hend

/-- Settles O16: an index in the table is a run of one, and one past it is rejected. -/
theorem oneChannelIsWrittenOrDropped : Obligations.OneChannelIsWrittenOrDropped := by
  intro s index value hr hm
  refine ⟨fun hi => ?_, fun hi => ?_⟩
  · have hend : index.toNat + [value].length ≤ 512 := Nat.succ_le_succ hi
    refine ⟨_, exec_setChannel_of_accepted hr value hi, ?_, fun c hc => chanAt_written_of_ne hm value hc,
      fbAt_written hm _ _, raiseHwm_toNat_of_le s.hwm hend, rfl⟩
    rw [chanAt_written_of_mem hm (Nat.le_refl _) (by simp) hend, Nat.sub_self]
    rfl
  · rw [exec_setChannel_of_ready hr, writeChannels_of_rejected _ (by omega)]

/-- Settles O17: the index passes the bound test, and the answer is the table's byte. -/
theorem readAnswersTheStoredByte : Obligations.ReadAnswersTheStoredByte :=
  fun _ _ hr hi => exec_getChannel_of_ready hr hi

/-! ### What changes a channel -/

/-- The operation is a write, accepted by R81, that covers channel `c` and has `v` for it. -/
def StoresIn (c : Nat) (v : Byte) : Instr → Prop
  | .setChannel index value => index.toNat = c ∧ c ≤ 511 ∧ v = value
  | .setChannels start length data => start.toNat ≤ c ∧ c < start.toNat + length.toNat ∧
      start.toNat + length.toNat ≤ 512 ∧ v = data.getD (c - start.toNat) 0#8
  | .initializeCore => False
  | .reset => False
  | .serviceTick => False
  | .getChannel _ => False

/-- A write changes only channels of its range. -/
theorem mem_range_of_chanAt_written_ne (hm : s.mem.wf) {start c : Nat} {data : List Byte}
    (hne : chanAt (written s start data) c ≠ chanAt s c) : start ≤ c ∧ c < start + data.length := by
  by_contra hout
  rcases Nat.lt_or_ge c start with hlt | hge
  · exact hne (chanAt_written_of_lt hm hlt)
  · exact hne (chanAt_written_of_le hm (by omega))

/-- Of the operations only an accepted write of a ready core changes a channel. -/
theorem Effect.storesIn_of_chanAt_ne (h : Effect s i t) (hm : s.mem.wf) {c : Nat} (hne : chanAt t c ≠ chanAt s c) :
    s.Ready ∧ StoresIn c (chanAt t c) i := by
  cases h with
  | raised | nothing | answered | sentOld | waits | broughtUp => exact absurd rfl hne
  | sentNew => exact absurd (read_ch_encodeUpTo _ _ _) hne
  | wrote _ start data hr hd hi =>
    refine ⟨hr, ?_⟩
    obtain ⟨hlo, hhi⟩ := mem_range_of_chanAt_written_ne hm hne
    have hbyte : chanAt (written s start data) c = _ := chanAt_written_of_mem hm hlo hhi hd
    have field_toNat : ∀ n ≤ 512, (BitVec.ofNat 12 n).toNat = n := fun n hn =>
      (BitVec.toNat_ofNat n 12).trans (Nat.mod_eq_of_lt (by omega))
    have hstart := field_toNat start (by omega)
    rcases hi with rfl | ⟨v, rfl, rfl⟩
    · rw [StoresIn, hstart, field_toNat data.length (by omega)]
      exact ⟨hlo, hhi, hd, hbyte⟩
    · rw [List.length_singleton] at hhi hd
      obtain rfl : c = start := by omega
      rw [Nat.sub_self] at hbyte
      exact ⟨hstart, by omega, hbyte⟩

/-- Settles O20: beside the operations only ResetFinish touches the table. -/
theorem tableChangesOnlyByWritesAndReset : Obligations.TableChangesOnlyByWritesAndReset := by
  intro s t c hm hstep hne
  cases step_move s t hstep with
  | clock | hold | badWord => exact absurd rfl hne
  | complete => exact absurd ((tableKept_transportComplete _).chanAt_eq c) hne
  | finish _ hl _ => exact .inl ⟨hl, rfl⟩
  | operation cmd rest i t ht _ hdec _ he =>
    obtain ⟨hr, hstores⟩ := he.storesIn_of_chanAt_ne hm hne
    refine .inr ⟨cmd, rest, ht, hr, ?_⟩
    cases i with
    | setChannel index value => exact .inl ⟨index, value, hdec, hstores⟩
    | setChannels start length data => exact .inr ⟨start, length, data, hdec, hstores⟩
    | initializeCore | reset | serviceTick | getChannel => exact hstores.elim

/-! ### No operation is refused or stuck (R80, R110) -/

/-- A ready core gives every well-formed operation a next state. -/
theorem exec_next_of_ready (hw : i.wellFormed = true) (hr : s.Ready) : ∃ t, exec i s = .next t := by
  cases i with
  | initializeCore => exact ⟨_, exec_initializeCore_of_ready hr⟩
  | reset => exact ⟨_, resetStartsTheWait s hr⟩
  | serviceTick =>
    cases hb : s.tBusy with
    | true => exact ⟨_, exec_serviceTick_of_busy hr hb⟩
    | false => exact ⟨_, exec_serviceTick_of_idle hr hb⟩
  | setChannel index value => exact ⟨_, exec_setChannel_of_ready hr index value⟩
  | setChannels start length data => exact ⟨_, exec_setChannels_of_ready hr start (beq_iff_eq.mp hw)⟩
  | getChannel index =>
    by_cases hi : index.toNat ≤ 511
    · exact ⟨_, exec_getChannel_of_ready hr hi⟩
    · exact ⟨_, exec_getChannel_of_out_of_range hr (by omega)⟩

/-- Settles O12: by the lifecycle state, an operation runs or records a fault. -/
theorem everyOperationHasANextState : Obligations.EveryOperationHasANextState := by
  intro i s hw hf
  cases hl : s.life with
  | ready => exact exec_next_of_ready hw ⟨hl, hf⟩
  | resetWait => exact ⟨_, exec_of_resetWait hw hf hl⟩
  | uninit =>
    by_cases hi : i = .initializeCore
    · subst hi
      exact ⟨_, initConfiguresRoutesAndWaits s hl hf⟩
    · exact ⟨_, exec_of_uninit hw hi hf hl⟩

end Sys2Proof.Machine
end

section
/-! PROOFS. From the table to the line: the re-encode (O23), the four cases of the tick (O29), and the line during a
transfer and between transfers (O34, O35). -/

namespace Sys2Proof.Machine

variable {s : State}

/-- Settles O23: a re-encode up to `h` reads, address by address, as the block it rewrites or as before. -/
theorem reencodeRewritesTheBlocksBelowTheBound : Obligations.ReencodeRewritesTheBlocksBelowTheBound :=
  fun m h hm _ => ⟨fun _ _ hb ho => read_encodeUpTo_block hm h hb ho,
    fun o ho => (read_encodeUpTo hm h o).trans (if_neg (by omega)), read_ch_encodeUpTo h m, wf_encodeUpTo h m hm⟩

/-- An idle tick of a clean core sends the buffer as it is, or does nothing. -/
theorem exec_serviceTick_of_not_dirty (hr : s.Ready) (hb : s.tBusy = false) (hd : s.dirty = false) :
    exec .serviceTick s = .next (if s.pending || refreshDue s.cfg s.now s.lastTx then sent s else s) := by
  rw [exec_serviceTick_of_idle hr hb, encodeIfDirty_of_clean hd]

/-- Settles O29: the tick asks for `tBusy`, then `dirty`, then `pending` and the refresh. -/
theorem tickFollowsTheGatedOrder : Obligations.TickFollowsTheGatedOrder := by
  refine fun s hr => ⟨exec_serviceTick_of_busy hr, fun hb hd => ?_, fun hb hd howed => ?_, fun hb hd hp hdue => ?_⟩
  · rw [exec_serviceTick_of_dirty hr hb hd, encodeIfDirty, if_pos hd]
    rfl
  · rw [exec_serviceTick_of_not_dirty hr hb hd, if_pos (Bool.or_eq_true_iff.mpr howed), sent]
  · rw [exec_serviceTick_of_not_dirty hr hb hd, hp, hdue]
    rfl

/-! ### The line (R72, R124) -/

/-- Settles O35: the frame in flight is the buffer, and past the first transfer the pin is routed. -/
theorem lineLevelIsTheStreamBit : Obligations.LineLevelIsTheStreamBit := by
  refine fun s n h => ⟨fun hb hn => ?_, fun hb hlog => ?_⟩
  · rw [lineLevel_of_inFlight (h.tFrame_of_busy hb) hn, streamBit, getD_fbBytes s _ (by omega)]
  · have hl : s.life ≠ .uninit := fun hl => by
      obtain ⟨-, -, -, hnone⟩ := (setUp_iff_of_uninit hl).mp h.setUp
      exact hlog hnone
    obtain ⟨-, hrouted⟩ := (setUp_iff_of_past_uninit hl).mp h.setUp
    exact lineLevel_of_idle (h.tFrame_of_idle hb) hrouted hlog

/-- Slot `c` of the stream of the table's frame carries channel `c`. -/
theorem streamBit_tableFrame_slot (s : State) {c p : Nat} (hc : c < 512) (hp : p < 11) :
    streamBit (tableFrame s) (40 + 11 * c + p) = slotBit (chanAt s c) p :=
  streamBit_encodeFrame_slot (chanAt s) (romHeader_length s.cfg) hc hp

/-- Settles O34: the tick hands the transport the frame of the table, and all its slots lie within the frame's bits. -/
theorem lineCarriesTheTableAfterATick : Obligations.LineCarriesTheTableAfterATick := by
  intro s t hr hi hf hd hb htick c hc
  obtain ⟨u, hu, -, hframe, -⟩ := dirty_tick_sends_tableFrame hr hf hi.wf (hi.hwm_le hr.1) hb hd
  obtain rfl : u = t := by rw [htick] at hu; cases hu; rfl
  have slot {p : Nat} (hp : p < 11) : lineLevel u (40 + 11 * c + p) = slotBit (chanAt s c) p :=
    (lineLevel_of_inFlight hframe (show 40 + 11 * c + p < 5672 by omega)).trans (streamBit_tableFrame_slot s hc hp)
  refine ⟨slot (p := 0) (by decide), fun j hj => ?_, slot (p := 9) (by decide), slot (p := 10) (by decide)⟩
  rw [Nat.add_assoc, slot (by omega)]
  simp [slotBit, show ¬ 9 ≤ 1 + j by omega, show 1 + j < 9 by omega]

end Sys2Proof.Machine
end

section
/-! PROOFS. What a receiver makes of the frames that are sent: every table comes back (O27), and none is malformed
(O46). -/

namespace Sys2Proof.Machine

variable {s t : State} {i : Instr}

/-- Settles O27: a valid header has run lengths that sum to 29, and the receiver reads its frames back. -/
theorem receiverReadsBackEveryTable : Obligations.ReceiverReadsBackEveryTable := by
  intro header ch hvalid
  obtain ⟨hlen, ⟨a, b, m⟩, hruns⟩ := (headerValid_iff header).mp hvalid
  obtain ⟨-, hb, hm⟩ := eq_of_headerRuns hruns
  exact ⟨a, b, m, hruns, headerRuns_sum hruns, hb, hm, decodeFrame_encodeFrame ch hlen hruns⟩

/-- An operation leaves the log, or a ready core sends a buffer that encodes its table. -/
theorem Effect.log_kept_or_sent (h : Effect s i t) :
    t.txLog = s.txLog ∨ (t.life = .ready ∧ t.dirty = false ∧ t.txLog = s.txLog ++ [(s.now, fbBytes t)]) := by
  cases h with
  | raised | nothing | wrote | answered | waits | broughtUp => exact .inl rfl
  | sentNew hr _ _ => exact .inr ⟨hr.1, rfl, rfl⟩
  | sentOld hr _ hd => exact .inr ⟨hr.1, hd, rfl⟩

theorem Move.log_kept_or_sent (h : Move s t) :
    t.txLog = s.txLog ∨ (t.life = .ready ∧ t.dirty = false ∧ t.txLog = s.txLog ++ [(s.now, fbBytes t)]) := by
  cases h with
  | clock | hold | finish | badWord => exact .inl rfl
  | complete => rw [transportComplete_eq]; exact .inl rfl
  | operation _ _ _ _ _ _ _ _ he => exact he.log_kept_or_sent

/-- A core that is ready after a step was ready and framed before it, or has just finished its reset. -/
theorem framedWhenReady_of_step (hi : Inv s) (hf : FramedWhenReady s) (hstep : step s = .next t) :
    FramedWhenReady t := fun hready => by
  by_cases hl : t.life = s.life
  · exact (step_move s t hstep).keeps_framed hi (hf (hl.symm.trans hready))
  · rcases lifecycleMovesOnlyAsListed s t hstep hl with ⟨-, hw, -⟩ | ⟨-, hw, -⟩ | ⟨-, -, -, rfl⟩
    · cases hready.symm.trans hw
    · cases hready.symm.trans hw
    · exact framed_resetFinish (s := afterTurn s) hi.wf

/-- Settles O46: the only bytes a step logs are the buffer of a ready, clean, framed core, which is the frame of its
table under the header. -/
theorem noMalformedFrameIsEverSent : Obligations.NoMalformedFrameIsEverSent := by
  intro s t hvalid hi hf hwire hstep
  have hmove := step_move s t hstep
  have hframed := framedWhenReady_of_step hi hf hstep
  refine ⟨hframed, fun e he => ?_⟩
  rcases hmove.log_kept_or_sent with hlog | ⟨hready, hclean, hlog⟩
  · exact hwire e (hlog ▸ he)
  rw [hlog] at he
  rcases List.mem_append.mp he with hold | hnew
  · exact hwire e hold
  · obtain ⟨-, b, m, -, -, hb, hm, hdecode⟩ := receiverReadsBackEveryTable s.cfg.header (chanAt t) hvalid
    refine ⟨b, m, (List.range 512).map (chanAt t), hb, hm, by simp, ?_⟩
    rw [List.mem_singleton.mp hnew, (hframed hready).clean hready hclean, tableFrame, hmove.cfg_eq,
      romHeader_of_length ((headerValid_iff _).mp hvalid).1, hdecode]

end Sys2Proof.Machine
end

section
/-! PROOFS. The High-Water Mark shows in no answer of a framed core (R33, O48). -/

namespace Sys2Proof.Machine

variable {s t : State} {i : Instr}

/-- The states agree on everything but the mark, and on the memory as far as it can be read. -/
def AlikeButMark (t u : State) : Prop :=
  fbBytes u = fbBytes t ∧ (∀ c < 512, chanAt u c = chanAt t c) ∧ u = { t with mem := u.mem, hwm := u.hwm }

theorem alikeButMark_withMark {h : BitVec 10} : AlikeButMark s { s with hwm := h } :=
  ⟨rfl, fun _ _ => rfl, rfl⟩

/-- Under two marks the operation has next states that are alike. -/
def AnswersAlike (i : Instr) (s : State) (h : BitVec 10) : Prop :=
  ∃ t u, exec i s = .next t ∧ exec i { s with hwm := h } = .next u ∧ AlikeButMark t u

/-- A write is accepted or dropped, and stores its bytes, whatever the mark. -/
theorem alikeButMark_writeChannels (s : State) (h : BitVec 10) (start length : Nat) (data : List Byte) :
    AlikeButMark (writeChannels start length data s) (writeChannels start length data { s with hwm := h }) := by
  unfold writeChannels
  split
  · exact ⟨rfl, fun _ _ => rfl, rfl⟩
  · exact alikeButMark_withMark

/-- The re-encode up to either mark leaves the whole frame of the table (R90), and the rest of a tick does not read the
mark. -/
theorem serviceTick_answersAlike {h : BitVec 10} (hr : s.Ready) (hi : Inv s) (hf : Framed s)
    (hi' : Inv { s with hwm := h }) (hf' : Framed { s with hwm := h }) : AnswersAlike .serviceTick s h := by
  have hr' : ({ s with hwm := h } : State).Ready := hr
  cases hb : s.tBusy with
  | true => exact ⟨_, _, exec_serviceTick_of_busy hr hb, exec_serviceTick_of_busy hr' hb, alikeButMark_withMark⟩
  | false =>
    cases hd : s.dirty with
    | false =>
      refine ⟨_, _, exec_serviceTick_of_not_dirty hr hb hd, exec_serviceTick_of_not_dirty hr' hb hd, ?_⟩
      dsimp only
      split
      · exact alikeButMark_withMark (s := sent s)
      · exact alikeButMark_withMark
    | true =>
      have hbytes : (encodeUpTo h.toNat s.mem).bytes .fb = (encodeUpTo s.hwm.toNat s.mem).bytes .fb :=
        (encodeBoundIsNotObservable { s with hwm := h } h.toNat hi.wf hf'.header hf'.zeros (Nat.le_refl _)
          (hi'.hwm_le hr.1)).trans
        (encodeBoundIsNotObservable s s.hwm.toNat hi.wf hf.header hf.zeros (Nat.le_refl _) (hi.hwm_le hr.1)).symm
      obtain ⟨-, hsends, -⟩ := tickFollowsTheGatedOrder s hr
      obtain ⟨-, hsends', -⟩ := tickFollowsTheGatedOrder _ hr'
      refine ⟨_, _, hsends hb hd, hsends' hb hd, hbytes, fun c _ => ?_, ?_⟩
      · exact (read_ch_encodeUpTo _ _ c).trans (read_ch_encodeUpTo _ _ c).symm
      · rw [hbytes]

/-- No operation of a ready, framed core shows its mark. -/
theorem answersAlike_of_ready {h : BitVec 10} (hw : i.wellFormed = true) (hr : s.Ready) (hi : Inv s) (hf : Framed s)
    (hi' : Inv { s with hwm := h }) (hf' : Framed { s with hwm := h }) : AnswersAlike i s h := by
  have hr' : ({ s with hwm := h } : State).Ready := hr
  cases i with
  | initializeCore =>
    exact ⟨_, _, exec_initializeCore_of_ready hr, exec_initializeCore_of_ready hr', alikeButMark_withMark⟩
  | reset => exact ⟨_, _, resetStartsTheWait s hr, resetStartsTheWait _ hr', alikeButMark_withMark⟩
  | serviceTick => exact serviceTick_answersAlike hr hi hf hi' hf'
  | setChannel index value =>
    exact ⟨_, _, exec_setChannel_of_ready hr index value, exec_setChannel_of_ready hr' index value,
      alikeButMark_writeChannels s h _ _ _⟩
  | setChannels start length data =>
    have hd : data.length = length.toNat := beq_iff_eq.mp hw
    exact ⟨_, _, exec_setChannels_of_ready hr start hd, exec_setChannels_of_ready hr' start hd,
      alikeButMark_writeChannels s h _ _ _⟩
  | getChannel index =>
    by_cases hin : index.toNat ≤ 511
    · exact ⟨_, _, exec_getChannel_of_ready hr hin, exec_getChannel_of_ready hr' hin, alikeButMark_withMark⟩
    · have hout : 512 ≤ index.toNat := Nat.lt_of_not_le hin
      exact ⟨_, _, exec_getChannel_of_out_of_range hr hout, exec_getChannel_of_out_of_range hr' hout,
        alikeButMark_withMark⟩

/-- An operation that answers a next state is well-formed: the byte list is the one check (R65). -/
theorem wellFormed_of_exec (h : exec i s = .next t) : i.wellFormed = true := by
  cases i with
  | setChannels => exact beq_iff_eq.mpr (exec_setChannels_next h).1
  | initializeCore | reset | serviceTick | setChannel | getChannel => rfl

/-- Settles O48: a framed core is past UNINIT, in RESET_WAIT every operation raises, and a ready core's operations
answer alike. -/
theorem highWaterMarkIsNeverObserved : Obligations.HighWaterMarkIsNeverObserved := by
  intro s h i t u hi hf hi' hf' ht hu
  have hw := wellFormed_of_exec ht
  have hnone := fault_eq_none_of_exec ht
  have halike : AnswersAlike i s h := by
    cases hl : s.life with
    | uninit => exact absurd hl hf.past_uninit
    | resetWait =>
      exact ⟨_, _, exec_of_resetWait hw hnone hl, exec_of_resetWait (s := { s with hwm := h }) hw hnone hl,
        alikeButMark_withMark⟩
    | ready => exact answersAlike_of_ready hw ⟨hl, hnone⟩ hi hf hi' hf'
  obtain ⟨t', u', ht', hu', hsame⟩ := halike
  cases ht.symm.trans ht'
  cases hu.symm.trans hu'
  exact hsame

end Sys2Proof.Machine
end
